-- ==== Sys2Proof/Word.lean ====
section
/-! DEFINITION. The operand width `OPW` and the register word. -/

namespace Sys2Proof

/-- The operand width parameter of rule R7: `OPW` is a multiple of 32 and at least 32.
`⟨k⟩` stands for `OPW = 32·(k + 1)`, so exactly the legal widths are values of this type. -/
structure OpWidth where
  extra : Nat
deriving DecidableEq, Repr

/-- `OPW` itself, in bits (rule R7). -/
def OpWidth.bits (w : OpWidth) : Nat := 32 * (w.extra + 1)

/-- A register, operand or result of `n` bits; bit 0 is the least significant (rules R7, R10). -/
abbrev Word (n : Nat) := BitVec n

end Sys2Proof
end

