-- ==== Sys2Proof/Syntax.lean ====
section
/-! DEFINITION. The commands of the engine, one constructor per row of spec/opcode_table.json. -/

namespace Sys2Proof

/-- The four commands of rules R3 and R82. A command word has no operand field (rule R80): every
operand comes from `OPA`, `OPB` and `OPC` as they were latched at acceptance (rule R84). -/
inductive Instr where
  | gcd      -- command word 0x00000001, rule R120
  | inv      -- command word 0x00000002, rule R130
  | modexp   -- command word 0x00000003, rule R140
  | modmul   -- command word 0x00000004, rule R147
deriving DecidableEq, Repr

end Sys2Proof
end

