-- ==== Sys2Proof/Decode.lean ====
section
/-! DEFINITION. The command word: its two fields, the decoder and, after it, the encoder. -/

namespace Sys2Proof

/-- `OP`, bits `[3:0]` of a command word (rule R80). -/
def opField {n : Nat} (v : Word n) : BitVec 4 := v.extractLsb' 0 4

/-- `MBZ`, bits `[OPW−1:4]` of a command word, as a number (rule R80). -/
def mbzField {n : Nat} (v : Word n) : Nat := v.toNat >>> 4

/-- The opcode map of rule R82; `0x0` and `0x5` to `0xF` are illegal (rule R83). -/
def decodeOp (op : BitVec 4) : Option Instr :=
  if op = 0x1#4 then some .gcd
  else if op = 0x2#4 then some .inv
  else if op = 0x3#4 then some .modexp
  else if op = 0x4#4 then some .modmul
  else none

/-- The decoder of rule R87: it reads `v[3:0]` and checks `v[OPW−1:4] = 0`. `none` is an illegal
command word (rules R81, R83). -/
def decode {n : Nat} (v : Word n) : Option Instr :=
  if mbzField v = 0 then decodeOp (opField v) else none

/-- The command decoded from a table word of `nbits` bits, laid into a command register that is wide
enough for it, the bits above `nbits` zero (rule R81). -/
def decodeTableWord (nbits w : Nat) : Option Instr :=
  decode (BitVec.ofNat (max nbits 32) (w % 2 ^ nbits))

/-- The `OP` value of a command (rule R82). -/
def Instr.opcode : Instr → BitVec 4
  | .gcd => 0x1#4
  | .inv => 0x2#4
  | .modexp => 0x3#4
  | .modmul => 0x4#4

/-- The command word of a command: `OP` in bits `[3:0]`, `MBZ` zero (rules R80, R82). -/
def encode (n : Nat) (i : Instr) : Word n := i.opcode.setWidth n

end Sys2Proof
end

