-- ==== Sys2Proof/Config.lean ====
section
/-! DEFINITION. What is fixed for the block (identification constants, the width a reset machine of
this model is built with) and the free values: what the spec leaves open and the model does not choose. -/

namespace Sys2Proof

/-- Whose move a step is (rules R68, R102): the host agent's, the engine's, an edge of the reset input
(rule R190), or the move of whoever is due, which makes the interleaving fair (rule R108, log entry 5). -/
inductive Machine.Turn where
  | host
  | engine
  | assertReset
  | releaseReset
  | due
deriving DecidableEq, Repr

/-- `ID` reads `0x47434445`, ASCII "GCDE" (rules R2, R23). -/
def Config.idValue : Nat := 0x47434445

/-- `PARAM.REV` reads `0x0001` (rules R2, R25). -/
def Config.revision : BitVec 16 := 0x0001#16

/-- The width of `State.reset`: the reference value `OPW = 32` of rule R7.
DESIGN CHOICE (log entry 1): the width is a field of State, and every statement is about every width. -/
def Config.refWidth : OpWidth := ⟨0⟩

/-- Free value (log entry 3): `modmul(x, y, 0)`.
Rule R139 defines the multiplier for `n ≥ 1` only and says it is never called with `n = 0`. -/
opaque Config.modMulByZero : Nat → Nat → Nat

/-- Free value (log entry 5): the interleaving, part by part. The moves of part `k` come, in order, before
the `k`-th move that is due; the spec leaves them free, any finite number of them (rules R8, R68, R108). -/
opaque Config.turnsBefore : Nat → List Machine.Turn

/-- Free value (log entry 21): the host's `k`-th draw from its random source (rules R6, R92; I4). -/
opaque Config.hostDraw : Nat → Nat

end Sys2Proof
end

