-- ==== Sys2Proof/Machine/Script.lean ====
section
/-! DEFINITION. The register map and the host-script language: the statements a host program is
written in, the fields it can name, and the port transactions it performs. -/

namespace Sys2Proof.Machine

/-- The 16 register indices of rule R20. `reserved k` is index `0xB + k`. -/
inductive Reg where
  | id | param | ctrl | status | cmd | opa | opb | opc | result | aux | iter
  | reserved (k : Fin 5)
deriving DecidableEq, Repr

/-- `idx(REG)`, the index of a register (rules R20, R88). -/
def Reg.idx : Reg → BitVec 4
  | .id => 0x0#4
  | .param => 0x1#4
  | .ctrl => 0x2#4
  | .status => 0x3#4
  | .cmd => 0x4#4
  | .opa => 0x5#4
  | .opb => 0x6#4
  | .opc => 0x7#4
  | .result => 0x8#4
  | .aux => 0x9#4
  | .iter => 0xA#4
  | .reserved k => BitVec.ofNat 4 (0xB + k)

/-- The register at an index. Every index is a legal access (rules R20, R64). -/
def Reg.ofIdx (i : BitVec 4) : Reg :=
  match i.toNat with
  | 0x0 => .id
  | 0x1 => .param
  | 0x2 => .ctrl
  | 0x3 => .status
  | 0x4 => .cmd
  | 0x5 => .opa
  | 0x6 => .opb
  | 0x7 => .opc
  | 0x8 => .result
  | 0x9 => .aux
  | 0xA => .iter
  | 0xB => .reserved 0
  | 0xC => .reserved 1
  | 0xD => .reserved 2
  | 0xE => .reserved 3
  | _ => .reserved 4

/-- The named fields of rules R24 to R33. -/
inductive Field where
  | paramOpw | paramRev
  | ctrlIrqEn | ctrlRangeChk | ctrlSrst
  | statusBusy | statusDone | statusOvr | statusErr
deriving DecidableEq, Repr

/-- The register a field belongs to (rules R24 to R33). -/
def Field.reg : Field → Reg
  | .paramOpw | .paramRev => .param
  | .ctrlIrqEn | .ctrlRangeChk | .ctrlSrst => .ctrl
  | .statusBusy | .statusDone | .statusOvr | .statusErr => .status

/-- A field's lowest bit (rules R24 to R32). -/
def Field.lo : Field → Nat
  | .paramOpw => 0
  | .paramRev => 16
  | .ctrlIrqEn => 0
  | .ctrlRangeChk => 1
  | .ctrlSrst => 2
  | .statusBusy => 0
  | .statusDone => 1
  | .statusOvr => 2
  | .statusErr => 4

/-- A field's width in bits (rules R24 to R32). -/
def Field.len : Field → Nat
  | .paramOpw | .paramRev => 16
  | .statusErr => 4
  | .ctrlIrqEn | .ctrlRangeChk | .ctrlSrst | .statusBusy | .statusDone | .statusOvr => 1

/-- `v.FIELD` of a register value `v`, read as an unsigned number (rule R10). -/
def Field.get (f : Field) (v : Nat) : Nat := (v >>> f.lo) % 2 ^ f.len

/-- A `value` of rule R88: a number or a bound name. Names are numbered (log entry 4). -/
inductive HostVal where
  | num (v : Nat)
  | name (k : Nat)
deriving DecidableEq, Repr

/-- The condition of an `if`: it compares a bound name, or a field of a bound value, with a number,
by `=` or (`eq := false`) by `≠` (rule R88 and 95_test_vectors.md §3). -/
structure Cond where
  name : Nat
  field : Option Field
  eq : Bool
  rhs : Nat
deriving DecidableEq, Repr

/-- The host-script statements of rule R88, and the host's random draw, which performs no transaction:
`draw name, phi` binds a random candidate of the open range `(2, phi)` (rule R92, log entry 21).
Labels are numbered (log entry 4). -/
inductive Stmt where
  | wr (r : Reg) (v : HostVal)
  | rd (r : Reg) (name : Nat)
  | poll (f : Field) (v : HostVal)
  | label (l : Nat)
  | ifGoto (c : Cond) (l : Nat)
  | draw (name : Nat) (phi : HostVal)
deriving DecidableEq, Repr

/-- A port transaction as rule R88 writes it: `W idx data` or `R idx -> data`. -/
inductive Txn where
  | w (idx : BitVec 4) (data : Nat)
  | r (idx : BitVec 4) (data : Nat)
deriving DecidableEq, Repr

/-- The bound names of a host script (rules R88, R210), a list of (name, value) pairs with the names
strictly rising. `bindName` is the one writer. -/
def bindName (k v : Nat) : List (Nat × Nat) → List (Nat × Nat)
  | [] => [(k, v)]
  | (k', v') :: rest =>
    if k < k' then (k, v) :: (k', v') :: rest
    else if k = k' then (k, v) :: rest
    else (k', v') :: bindName k v rest

/-- The value bound to a name, if it is bound. -/
def lookupName (k : Nat) : List (Nat × Nat) → Option Nat
  | [] => none
  | (k', v') :: rest => if k = k' then some v' else lookupName k rest

/-- The number a `value` of a statement stands for (rule R88). -/
def HostVal.eval (names : List (Nat × Nat)) : HostVal → Option Nat
  | .num v => some v
  | .name k => lookupName k names

/-- Whether a condition holds; `none` when its name is not bound (rule R88). -/
def Cond.holds (names : List (Nat × Nat)) (c : Cond) : Option Bool :=
  match lookupName c.name names with
  | none => none
  | some v =>
    let x := match c.field with
      | none => v
      | some f => f.get v
    some (decide (x = c.rhs) == c.eq)

/-- The candidate that draw `k` of the host gives: some number of the open range `(2, phi)`, which one is
free (rule R92; I4). Where that range is empty the spec states no candidate, and any register value may
come (log entry 21). -/
def hostCandidate (k phi n : Nat) : Nat :=
  if 3 < phi then 3 + Config.hostDraw k % (phi - 3) else Config.hostDraw k % 2 ^ n

/-- The position of a label in a script (rule R88). -/
def findLabel (l : Nat) : List Stmt → Option Nat
  | [] => none
  | st :: rest => if st = .label l then some 0 else (findLabel l rest).map (· + 1)

end Sys2Proof.Machine
end

