-- ==== Sys2Proof/Machine/State.lean ====
section
/-! DEFINITION. The state of the block, of its reset input and of the one host agent, all plain data,
and the state right after reset. -/

namespace Sys2Proof.Machine

/-- The error codes of rule R160: exactly these five. -/
inductive ErrCode where
  | none               -- 0x0 NONE
  | illegalCommand     -- 0x1 ILLEGAL_COMMAND
  | invalidInverse     -- 0x2 INVALID_INVERSE_INPUT
  | modulusZero        -- 0x3 MODULUS_ZERO
  | messageOutOfRange  -- 0x4 MESSAGE_OUT_OF_RANGE
deriving DecidableEq, Repr

/-- The sequencing state `eng.fsm` of rule R39. -/
inductive Fsm where
  | idle | check | gcdLoop | invLoop | expLoop
deriving DecidableEq, Repr

/-- The host-visible storage (rule R20). `ID`, `PARAM` and `CMD` hold no state (rules R23 to R25, R34);
`STATUS.BUSY` is a function of `eng.fsm` (rule R29); reserved bits are not stored (rule R22). -/
structure Regs (n : Nat) where
  irqEn    : Bool     -- CTRL.IRQ_EN, rule R26
  rangeChk : Bool     -- CTRL.RANGE_CHK, rule R27
  done     : Bool     -- STATUS.DONE, rule R30
  ovr      : Bool     -- STATUS.OVR, rule R31
  err      : ErrCode  -- STATUS.ERR, rule R32
  opa      : Word n   -- rule R35
  opb      : Word n
  opc      : Word n
  result   : Word n   -- rule R36
  aux      : Word n   -- rule R37
  iter     : Word n   -- rule R38
deriving DecidableEq, Repr

/-- The internal engine state of rule R39, under the spec's names (`eng.la` is `la`, and so on). -/
structure Engine (n : Nat) where
  fsm  : Fsm
  cmd  : Word n
  rc   : Bool
  la   : Word n
  lb   : Word n
  lc   : Word n
  a    : Word n
  b    : Word n
  x0   : Int
  x1   : Int
  acc  : Word n
  base : Word n
  exp  : Word n
  cnt  : Word n
deriving DecidableEq, Repr

/-- The block: its register file and its engine. -/
structure Block (n : Nat) where
  regs : Regs n
  eng  : Engine n
deriving DecidableEq, Repr

/-- The host agent (rules R88, R102, R181, R210): its script, its position in it and its bound names; and
how many times it has drawn from its random source, the model's own counter (log entry 21). -/
structure HostAgent where
  script : List Stmt
  pos    : Nat
  names  : List (Nat × Nat)
  drawn  : Nat
deriving DecidableEq, Repr

/-- The machine at a width of `n` bits: the block, the level of its reset input (rules R190, R195), the
host agent, and the interleaving (rule R68): the moves known to come next and, as the model's own counter,
how many parts of the free interleaving `Config.turnsBefore` are used up (log entry 5). -/
structure Mach (n : Nat) where
  blk     : Block n
  resetIn : Bool
  sched   : List Turn
  parts   : Nat
  host    : HostAgent
deriving DecidableEq, Repr

/-- The whole machine: its operand width `OPW` (rule R7), which nothing changes, and the machine at
that width. -/
structure State where
  width : OpWidth
  mach  : Mach width.bits
deriving DecidableEq, Repr

/-- Why a host program stops. The block itself never faults: it has no traps (rule R168). -/
inductive Fault where
  /-- Raised by a host statement that uses a name nothing has bound yet; rule R88 gives such a `value`
  no meaning. Safe: the host program stops. -/
  | unboundName
  /-- Raised by an `if … goto` whose label the script does not define; rule R88 gives it no position.
  Safe: the host program stops. -/
  | unknownLabel
  /-- Raised by a `wr` of a number of `2^OPW` or more, and by a draw below such a number; rule R207: the
  host cannot write it and must not truncate it. Safe: the host program stops. -/
  | valueTooWide
deriving DecidableEq, Repr

/-- Why the model has no step. -/
inductive Refusal where
  /-- Raised by `exec` for a command that has no meaning yet (none is left). Safe. -/
  | notModelled (mnemonic : String)
  /-- Raised by a command's meaning when the engine is neither at its check step nor in that command's
  loop: rule R103 enables no engine step of that command there. `step` never asks for one. Safe. -/
  | engineStepNotEnabled
  /-- Raised by the host agent for a port operation while the reset input is asserted; rule R195: it
  is refused, rather than given a value. Safe. -/
  | portDuringHardReset
deriving DecidableEq, Repr

/-- The register file right after a reset (rules R20, R190). -/
def Regs.reset (n : Nat) : Regs n :=
  { irqEn := false, rangeChk := false, done := false, ovr := false, err := .none,
    opa := 0, opb := 0, opc := 0, result := 0, aux := 0, iter := 0 }

/-- The engine right after a reset (rules R39, R190). -/
def Engine.reset (n : Nat) : Engine n :=
  { fsm := .idle, cmd := 0, rc := false, la := 0, lb := 0, lc := 0, a := 0, b := 0,
    x0 := 0, x1 := 0, acc := 0, base := 0, exp := 0, cnt := 0 }

/-- The block right after a reset, hard or soft (rules R190, R191). -/
def Block.reset (n : Nat) : Block n := { regs := Regs.reset n, eng := Engine.reset n }

/-- The host agent before any script is placed in it. -/
def HostAgent.reset : HostAgent := { script := [], pos := 0, names := [], drawn := 0 }

/-- The clean-entry state of rule R211 at a width: the block right after a reset, the reset input
released, nothing in flight, an empty host script, the whole interleaving free. -/
def Mach.reset (n : Nat) : Mach n :=
  { blk := Block.reset n, resetIn := false, sched := [], parts := 0, host := HostAgent.reset }

/-- The clean-entry state at a legal width (rules R7, R211). -/
def State.resetAt (w : OpWidth) : State := { width := w, mach := Mach.reset w.bits }

/-- The machine right after reset, at the reference width (rules R7, R190; log entry 1). -/
def State.reset : State := State.resetAt Config.refWidth

/-- The machine with another block. -/
def Mach.setBlk {n : Nat} (m : Mach n) (b : Block n) : Mach n := { m with blk := b }

end Sys2Proof.Machine
end

