-- ==== Sys2Proof/Machine/Flags.lean ====
section
/-! DEFINITION. The flags: the `STATUS`, `CTRL` and `PARAM` words, their fields, and the interrupt output. -/

namespace Sys2Proof.Machine

/-- The 4-bit code of an error (rule R160). -/
def ErrCode.code : ErrCode → BitVec 4
  | .none => 0x0#4
  | .illegalCommand => 0x1#4
  | .invalidInverse => 0x2#4
  | .modulusZero => 0x3#4
  | .messageOutOfRange => 0x4#4

/-- `STATUS.BUSY = (eng.fsm ≠ IDLE)` (rules R29, R40). -/
def Block.busy {n : Nat} (b : Block n) : Bool := decide (b.eng.fsm ≠ .idle)

/-- The interrupt output `irq = CTRL.IRQ_EN AND STATUS.DONE`, a function of the two fields (rule R170). -/
def Block.irq {n : Nat} (b : Block n) : Bool := b.regs.irqEn && b.regs.done

/-- `STATUS` as a read returns it: `ERR << 4 | OVR << 2 | DONE << 1 | BUSY`, bit 3 and bits
`[OPW−1:8]` zero (rules R22, R33). -/
def Block.statusWord {n : Nat} (b : Block n) : Word n :=
  (b.regs.err.code ++ 0#1 ++ BitVec.ofBool b.regs.ovr ++ BitVec.ofBool b.regs.done ++
    BitVec.ofBool b.busy).setWidth n

/-- `CTRL` as a read returns it: `RANGE_CHK << 1 | IRQ_EN`; bit 2 and the reserved bits read 0
(rules R22, R28). -/
def Block.ctrlWord {n : Nat} (b : Block n) : Word n :=
  (BitVec.ofBool b.regs.rangeChk ++ BitVec.ofBool b.regs.irqEn).setWidth n

/-- `PARAM.OPW`, 16 bits: the low 16 bits of `OPW` (rules R20, R24, R193). -/
def paramOpwField (n : Nat) : BitVec 16 := BitVec.ofNat 16 n

/-- `PARAM`: `REV` in bits `[31:16]`, `OPW` in bits `[15:0]`, the rest zero (rules R20, R22, R24, R25).
DEDUCED (log entry 2) for `OPW ≥ 65536`: `REV` is the constant of ruling D6 and the reserved bits are the zeros
of rulings D7 and I33, where the derived sum of rule R193 carries into them. DESIGN CHOICE (log entry 2) from
`OPW = 131072`: the same, where the OR of rule R20 does. -/
def paramWord (n : Nat) : Word n := (Config.revision ++ paramOpwField n).setWidth n

/-- The `CTRL` fields a write with `v[2] = 0` leaves (rule R28). -/
def Regs.writeCtrl {n : Nat} (r : Regs n) (v : Word n) : Regs n :=
  { r with irqEn := v.getLsbD 0, rangeChk := v.getLsbD 1 }

/-- Write-one-to-clear of `DONE` and `OVR`; every other bit of `v` is ignored (rules R30, R31, R33). -/
def Regs.writeStatus {n : Nat} (r : Regs n) (v : Word n) : Regs n :=
  { r with done := r.done && !v.getLsbD 1, ovr := r.ovr && !v.getLsbD 2 }

end Sys2Proof.Machine
end

