-- ==== Sys2Proof/Machine/Operands.lean ====
section
/-! DEFINITION. The operands: how they are latched, and which latched register plays which role. -/

namespace Sys2Proof.Machine

/-- The operand roles of rule R84. -/
inductive Role where
  | gcdA | gcdB
  | invE | invM
  | expBase | expExponent | expModulus
  | mulA | mulB | mulModulus
deriving DecidableEq, Repr

/-- The latched register that plays a role: the whole register, unsigned, no assembly (rules R84, R85). -/
abbrev Engine.operand {n : Nat} (e : Engine n) : Role → Word n
  | .gcdA | .invE | .expBase | .mulA => e.la
  | .gcdB | .invM | .expExponent | .mulB => e.lb
  | .expModulus | .mulModulus => e.lc

/-- Latching at acceptance: the command word, `CTRL.RANGE_CHK` and the three operand registers, with the
iteration counter cleared (rule R100). -/
def Engine.latch {n : Nat} (e : Engine n) (r : Regs n) (v : Word n) : Engine n :=
  { e with cmd := v, rc := r.rangeChk, la := r.opa, lb := r.opb, lc := r.opc, cnt := 0 }

end Sys2Proof.Machine
end

