-- ==== Sys2Proof/Machine/Ops.lean ====
section
/-! DEFINITION. The shared operations: completing a command (what stands where another machine takes an
exception, rule R12) and acknowledging it, accepting and dropping a command, resetting, the modular
multiplier, and an engine step as an outcome. -/

namespace Sys2Proof.Machine

variable {n : Nat}

/-- `complete(err, r, aux, it)`, all six writes together; `OVR`, `CTRL` and the operand registers keep
their values (rule R106). -/
def Block.complete (b : Block n) (err : ErrCode) (r aux it : Word n) : Block n :=
  { regs := { b.regs with result := r, aux := aux, iter := it, err := err, done := true },
    eng := { b.eng with fsm := .idle } }

/-- A check step that ends with an error writes `RESULT = AUX = ITER = 0` (rule R161). -/
def Block.fail (b : Block n) (err : ErrCode) : Block n := b.complete err 0 0 0

/-- The return from a completion: the host clears `DONE` with `PortWrite(0x3, 0x2)`; nothing else is
restored (rule R169). -/
def Block.acknowledge (b : Block n) : Block n := { b with regs := b.regs.writeStatus 0x2 }

/-- Accepting a command: rule R100's writes, in one host step. -/
def Block.accept (b : Block n) (v : Word n) : Block n :=
  { regs := { b.regs with done := false, err := .none },
    eng := { b.eng.latch b.regs v with fsm := .check } }

/-- Dropping a command: `OVR <- 1` and nothing else (rule R101). -/
def Block.drop (b : Block n) : Block n := { b with regs := { b.regs with ovr := true } }

/-- A write to `CMD`: accepted when `BUSY = 0`, dropped when `BUSY = 1` (rules R34, R100, R101). -/
def Block.writeCmd (b : Block n) (v : Word n) : Block n :=
  if b.busy then b.drop else b.accept v

/-- The soft reset of rule R191: exactly the state after a hard reset. -/
def Block.softReset (_b : Block n) : Block n := Block.reset n

/-- The modular multiplier: `(x·y) mod n`, exact, the product not truncated (rule R139). For `n = 0`,
with which it is never called, the value is free (log entry 3). -/
def modmul (x y m : Word n) : Word n :=
  if m = 0 then BitVec.ofNat n (Config.modMulByZero x.toNat y.toNat)
  else BitVec.ofNat n (x.toNat * y.toNat % m.toNat)

/-- One engine step of a command as an outcome: the block the step leaves, or, where no such step is
enabled, no step (rule R103). Nothing outside the block changes. -/
def engineOutcome (w : OpWidth) (m : Mach w.bits) (r : Option (Block w.bits)) :
    Host.Outcome State Fault Refusal :=
  match r with
  | some b => .next ⟨w, m.setBlk b⟩
  | none => .refused .engineStepNotEnabled

/-- An outcome at a width as an outcome of the whole machine: the width stays. -/
def liftOutcome (w : OpWidth) :
    Host.Outcome (Mach w.bits) Fault Refusal → Host.Outcome State Fault Refusal
  | .next m => .next ⟨w, m⟩
  | .fault f => .fault f
  | .refused r => .refused r

end Sys2Proof.Machine
end

