-- ==== Sys2Proof/Machine/Gcd.lean ====
section
/-! DEFINITION. The GCD unit: the meaning of `GCD`. -/

namespace Sys2Proof.Machine

variable {n : Nat}

/-- The check-step action of `GCD` (rule R120). -/
def gcdCheck (b : Block n) : Block n :=
  { b with eng := { b.eng with
      a := b.eng.operand .gcdA, b := b.eng.operand .gcdB, fsm := .gcdLoop } }

/-- One `GCD` loop step: complete when `eng.b = 0`, else one iteration (rule R121). -/
def gcdLoopStep (b : Block n) : Block n :=
  if b.eng.b = 0 then b.complete .none b.eng.a 0 b.eng.cnt
  else { b with eng := { b.eng with a := b.eng.b, b := b.eng.a % b.eng.b, cnt := b.eng.cnt + 1 } }

/-- One engine step of `GCD` on the block (rule R103). -/
def gcdBlock (b : Block n) : Option (Block n) :=
  match b.eng.fsm with
  | .check => some (gcdCheck b)
  | .gcdLoop => some (gcdLoopStep b)
  | .idle | .invLoop | .expLoop => none

/-- `GCD`: its check step or its loop step, whichever `eng.fsm` is at (rules R103, R120, R121). -/
def execGcd (s : State) : Host.Outcome State Fault Refusal :=
  engineOutcome s.width s.mach (gcdBlock s.mach.blk)

end Sys2Proof.Machine
end

