-- ==== Sys2Proof/Machine/Inv.lean ====
section
/-! DEFINITION. The extended-GCD inverse unit: the meaning of `INV`. -/

namespace Sys2Proof.Machine

variable {n : Nat}

/-- The check-step action of `INV`: `(a, b) = (m, e)` and `(x0, x1) = (0, 1)` (rule R130). -/
def invCheck (b : Block n) : Block n :=
  { b with eng := { b.eng with
      a := b.eng.operand .invM, b := b.eng.operand .invE, x0 := 0, x1 := 1, fsm := .invLoop } }

/-- The normalised coefficient of rule R133: `x0`, or `x0 + m` when `x0` is negative; no reduction. -/
def invResult (x0 : Int) (m : Word n) : Int := if x0 < 0 then x0 + m.toNat else x0

/-- The error code of finalize: `NONE` exactly when `eng.a = 1` and `m ≥ 2` (rules R133, R136). -/
def invErr (a m : Word n) : ErrCode :=
  if a.toNat = 1 ∧ 2 ≤ m.toNat then .none else .invalidInverse

/-- `INV` finalize: `RESULT` holds `d` whether or not an error is reported (rule R133). -/
def invFinalize (b : Block n) : Block n :=
  b.complete (invErr b.eng.a (b.eng.operand .invM))
    (BitVec.ofInt n (invResult b.eng.x0 (b.eng.operand .invM))) b.eng.a b.eng.cnt

/-- One `INV` iteration; every right-hand side reads the old values (rules R12, R131). -/
def invIterate (b : Block n) : Block n :=
  let q := b.eng.a.toNat / b.eng.b.toNat
  { b with eng := { b.eng with
      a := b.eng.b, b := BitVec.ofNat n (b.eng.a.toNat - q * b.eng.b.toNat),
      x0 := b.eng.x1, x1 := b.eng.x0 - q * b.eng.x1, cnt := b.eng.cnt + 1 } }

/-- One `INV` loop step: finalize when `eng.b = 0`, else one iteration (rule R131). -/
def invLoopStep (b : Block n) : Block n :=
  if b.eng.b = 0 then invFinalize b else invIterate b

/-- One engine step of `INV` on the block (rule R103). -/
def invBlock (b : Block n) : Option (Block n) :=
  match b.eng.fsm with
  | .check => some (invCheck b)
  | .invLoop => some (invLoopStep b)
  | .idle | .gcdLoop | .expLoop => none

/-- `INV`: its check step or its loop step, whichever `eng.fsm` is at (rules R103, R130, R131). -/
def execInv (s : State) : Host.Outcome State Fault Refusal :=
  engineOutcome s.width s.mach (invBlock s.mach.blk)

end Sys2Proof.Machine
end

