-- ==== Sys2Proof/Machine/Modexp.lean ====
section
/-! DEFINITION. The modular-exponentiation core: the meanings of `MODEXP` and `MODMUL`. -/

namespace Sys2Proof.Machine

variable {n : Nat}

/-- The check-step action of `MODEXP`: the modulus test, then the range test, then the load
(rules R140, R141, R165). -/
def modexpCheck (b : Block n) : Block n :=
  let x := b.eng.operand .expBase
  let m := b.eng.operand .expModulus
  if m = 0 then b.fail .modulusZero
  else if b.eng.rc = true ∧ m ≤ x then b.fail .messageOutOfRange
  else { b with eng := { b.eng with
      acc := 1 % m, base := x % m, exp := b.eng.operand .expExponent, fsm := .expLoop } }

/-- One `MODEXP` iteration, right to left: the accumulator multiplies by the old base (rule R142). -/
def modexpIterate (b : Block n) : Block n :=
  let m := b.eng.operand .expModulus
  { b with eng := { b.eng with
      acc := if b.eng.exp.getLsbD 0 then modmul b.eng.acc b.eng.base m else b.eng.acc,
      base := modmul b.eng.base b.eng.base m,
      exp := b.eng.exp >>> 1,
      cnt := b.eng.cnt + 1 } }

/-- One `MODEXP` loop step: complete when `eng.exp = 0`, else one iteration (rule R142). -/
def modexpLoopStep (b : Block n) : Block n :=
  if b.eng.exp = 0 then b.complete .none b.eng.acc 0 b.eng.cnt else modexpIterate b

/-- One engine step of `MODEXP` on the block (rule R103). -/
def modexpBlock (b : Block n) : Option (Block n) :=
  match b.eng.fsm with
  | .check => some (modexpCheck b)
  | .expLoop => some (modexpLoopStep b)
  | .idle | .gcdLoop | .invLoop => none

/-- `MODEXP`: its check step or its loop step, whichever `eng.fsm` is at (rules R103, R140, R142). -/
def execModexp (s : State) : Host.Outcome State Fault Refusal :=
  engineOutcome s.width s.mach (modexpBlock s.mach.blk)

/-- `MODMUL` does all its work in its check step (rule R147). -/
def modmulCheck (b : Block n) : Block n :=
  let m := b.eng.operand .mulModulus
  if m = 0 then b.fail .modulusZero
  else b.complete .none (modmul (b.eng.operand .mulA) (b.eng.operand .mulB) m) 0 1

/-- One engine step of `MODMUL` on the block: it has no loop (rules R103, R147). -/
def modmulBlock (b : Block n) : Option (Block n) :=
  match b.eng.fsm with
  | .check => some (modmulCheck b)
  | .idle | .gcdLoop | .invLoop | .expLoop => none

/-- `MODMUL` (rules R103, R147). -/
def execModmul (s : State) : Host.Outcome State Fault Refusal :=
  engineOutcome s.width s.mach (modmulBlock s.mach.blk)

end Sys2Proof.Machine
end

