-- ==== Sys2Proof/Machine/Dispatch.lean ====
section
/-! DEFINITION. One arm per command: its meaning. -/

namespace Sys2Proof.Machine

/-- One engine step of a command (rule R103): its check-step action or its loop step. -/
def exec (i : Instr) (s : State) : Host.Outcome State Fault Refusal :=
  match i with
  | .gcd => Sys2Proof.Machine.execGcd s
  | .inv => Sys2Proof.Machine.execInv s
  | .modexp => Sys2Proof.Machine.execModexp s
  | .modmul => Sys2Proof.Machine.execModmul s

end Sys2Proof.Machine
end

