-- ==== Sys2Proof/Machine/EngineAgent.lean ====
section
/-! DEFINITION. The engine agent: which step `eng.fsm` chooses, and the reset input. -/

namespace Sys2Proof.Machine

/-- One turn of the engine. At `CHECK` the latched word is decoded: a legal word's command takes its
check step, an illegal word completes with `ILLEGAL_COMMAND` and zero results (rules R83, R104). In a
loop that loop's command takes its loop step (rule R103). At `IDLE` no engine step is enabled and the
turn passes. -/
def engineTurn (s : State) : Host.Outcome State Fault Refusal :=
  match s.mach.blk.eng.fsm with
  | .idle => .next s
  | .check =>
    match decode s.mach.blk.eng.cmd with
    | some i => exec i s
    | none => .next ⟨s.width, s.mach.setBlk (s.mach.blk.fail .illegalCommand)⟩
  | .gcdLoop => exec .gcd s
  | .invLoop => exec .inv s
  | .expLoop => exec .modexp s

/-- The reset input is asserted: the block is reset, and stays so until the release (rules R190, R192).
DESIGN CHOICE (log entry 8): the block holds its reset values from the assertion on. Asserted already, it
stays so. -/
def assertReset {n : Nat} (m : Mach n) : Mach n := { m.setBlk (Block.reset n) with resetIn := true }

/-- The reset input is released: every register and internal field holds its reset value (rule R190).
DESIGN CHOICE (log entry 8): given while the input is not asserted, a case rule R190 does not have, this turn
is a whole reset in one step, assertion and release, which aborts a running command (rule R192). -/
def releaseReset {n : Nat} (m : Mach n) : Mach n := { m.setBlk (Block.reset n) with resetIn := false }

end Sys2Proof.Machine
end

