-- ==== Sys2Proof/Machine/Port.lean ====
section
/-! DEFINITION. The host port: `PortRead` and `PortWrite`, each one atomic step of the host (rules R60, R61). -/

namespace Sys2Proof.Machine

variable {n : Nat}

/-- What a register reads (rules R20 to R38). No read has a side effect (rule R65): this is a function
of the block alone. -/
def Block.readReg (b : Block n) : Reg → Word n
  | .id => BitVec.ofNat n Config.idValue
  | .param => paramWord n
  | .ctrl => b.ctrlWord
  | .status => b.statusWord
  | .cmd => 0
  | .opa => b.regs.opa
  | .opb => b.regs.opb
  | .opc => b.regs.opc
  | .result => b.regs.result
  | .aux => b.regs.aux
  | .iter => b.regs.iter
  | .reserved _ => 0

/-- A write to `CTRL`: with bit 2 set a soft reset that discards the other bits, else the two fields
(rule R28). -/
def Block.writeCtrl (b : Block n) (v : Word n) : Block n :=
  if v.getLsbD 2 then b.softReset else { b with regs := b.regs.writeCtrl v }

/-- What a write to a register does (rules R20 to R38). Writes to read-only and reserved registers are
ignored and set nothing (rule R21). -/
def Block.writeReg (b : Block n) (v : Word n) : Reg → Block n
  | .ctrl => b.writeCtrl v
  | .status => { b with regs := b.regs.writeStatus v }
  | .cmd => b.writeCmd v
  | .opa => { b with regs := { b.regs with opa := v } }
  | .opb => { b with regs := { b.regs with opb := v } }
  | .opc => { b with regs := { b.regs with opc := v } }
  | .id | .param | .result | .aux | .iter | .reserved _ => b

/-- `PortRead(idx)` (rule R60). -/
def portRead (b : Block n) (idx : BitVec 4) : Word n := b.readReg (Reg.ofIdx idx)

/-- `PortWrite(idx, v)` (rule R60). -/
def portWrite (b : Block n) (idx : BitVec 4) (v : Word n) : Block n := b.writeReg v (Reg.ofIdx idx)

end Sys2Proof.Machine
end

