-- ==== Sys2Proof/Machine/HostTurn.lean ====
section
/-! DEFINITION. The host agent: one host-script statement a turn (rules R88, R102). -/

namespace Sys2Proof.Machine

variable {n : Nat}

/-- The host goes on with its next statement. -/
def Mach.advance (m : Mach n) : Mach n := { m with host := { m.host with pos := m.host.pos + 1 } }

/-- The host binds a name to a value it has read (rule R88). -/
def Mach.bind (m : Mach n) (k v : Nat) : Mach n :=
  { m with host := { m.host with names := bindName k v m.host.names } }

/-- A port operation's turn: while the reset input is asserted it has no step (rule R195). -/
def Mach.portTurn (m : Mach n) (r : Host.Outcome (Mach n) Fault Refusal) :
    Host.Outcome (Mach n) Fault Refusal :=
  if m.resetIn then .refused .portDuringHardReset else r

/-- `wr REG, value`: one `PortWrite`. A value of `2^OPW` or more cannot be written (rules R88, R207). -/
def hostWr (m : Mach n) (r : Reg) (v : HostVal) : Host.Outcome (Mach n) Fault Refusal :=
  match v.eval m.host.names with
  | none => .fault .unboundName
  | some x =>
    if x < 2 ^ n then
      .next (m.setBlk (portWrite m.blk r.idx (BitVec.ofNat n x))).advance
    else .fault .valueTooWide

/-- `rd REG -> name`: one `PortRead`, its result bound to the name (rule R88). -/
def hostRd (m : Mach n) (r : Reg) (k : Nat) : Host.Outcome (Mach n) Fault Refusal :=
  .next (m.bind k (portRead m.blk r.idx).toNat).advance

/-- One read of `poll REG.FIELD, value`: the host goes on when the field has the value, and reads again
otherwise (rules R88, R89). -/
def hostPoll (m : Mach n) (f : Field) (v : HostVal) : Host.Outcome (Mach n) Fault Refusal :=
  match v.eval m.host.names with
  | none => .fault .unboundName
  | some x =>
    if f.get (portRead m.blk f.reg.idx).toNat = x then .next m.advance else .next m

/-- `if cond goto label`: control flow of the host, no port operation (rule R88). -/
def hostIfGoto (m : Mach n) (c : Cond) (l : Nat) : Host.Outcome (Mach n) Fault Refusal :=
  match c.holds m.host.names with
  | none => .fault .unboundName
  | some false => .next m.advance
  | some true =>
    match findLabel l m.host.script with
    | none => .fault .unknownLabel
    | some p => .next { m with host := { m.host with pos := p } }

/-- `draw name, phi`: the host draws a candidate and binds it, no port operation (rule R92, log entry 21).
A `phi` that no register holds is none the host can write (rule R207). -/
def hostDraw (m : Mach n) (k : Nat) (v : HostVal) : Host.Outcome (Mach n) Fault Refusal :=
  match v.eval m.host.names with
  | none => .fault .unboundName
  | some phi =>
    if phi < 2 ^ n then
      .next { m with host := { m.host with
        pos := m.host.pos + 1, names := bindName k (hostCandidate m.host.drawn phi n) m.host.names,
        drawn := m.host.drawn + 1 } }
    else .fault .valueTooWide

/-- One turn of the host: the statement at its position; none is left when the script has ended, and
the turn passes (rules R88, R210). -/
def hostTurn (m : Mach n) : Host.Outcome (Mach n) Fault Refusal :=
  match m.host.script[m.host.pos]? with
  | none => .next m
  | some (.wr r v) => m.portTurn (hostWr m r v)
  | some (.rd r k) => m.portTurn (hostRd m r k)
  | some (.poll f v) => m.portTurn (hostPoll m f v)
  | some (.label _) => .next m.advance
  | some (.ifGoto c l) => hostIfGoto m c l
  | some (.draw k v) => hostDraw m k v

/-- The port transaction the host's next turn performs, if it performs one (rule R88). -/
def Mach.hostTxn (m : Mach n) : Option Txn :=
  if m.resetIn then none
  else match m.host.script[m.host.pos]? with
    | some (.wr r v) =>
      match v.eval m.host.names with
      | some x => if x < 2 ^ n then some (.w r.idx x) else none
      | none => none
    | some (.rd r _) => some (.r r.idx (portRead m.blk r.idx).toNat)
    | some (.poll f v) =>
      if (v.eval m.host.names).isSome then some (.r f.reg.idx (portRead m.blk f.reg.idx).toNat)
      else none
    | some (.label _) | some (.ifGoto _ _) | some (.draw _ _) | none => none

/-- A host program has ended: its last statement has executed and no command is in flight (rule R210). -/
def Mach.ended (m : Mach n) : Bool :=
  decide (m.host.script.length ≤ m.host.pos) && !m.blk.busy

end Sys2Proof.Machine
end

