-- ==== Sys2Proof/Machine/Turn.lean ====
section
/-! DEFINITION. The interleaving of the agents and the reset input: whose turn comes next, and one turn. -/

namespace Sys2Proof.Machine

variable {n : Nat}

/-- The move that is due is the engine's while a command runs, so that no engine step waits for ever (rule
R108), else the host's. While the reset input is asserted it is the engine's too, and passes: nobody moves
(rules R190, R195). -/
def Mach.engineIsDue (m : Mach n) : Bool := m.resetIn || m.blk.busy

/-- The turn that comes next and those known to come after it. When `sched` knows none, the next part of
the free interleaving begins: any finite number of moves, then the one that is due (rules R68, R108; log
entry 5). -/
def Mach.upcoming (m : Mach n) : Turn × List Turn :=
  match m.sched with
  | t :: ts => (t, ts)
  | [] =>
    match Config.turnsBefore m.parts with
    | t :: ts => (t, ts ++ [.due])
    | [] => (.due, [])

/-- `m` with its next turn used up. -/
def Mach.turnUsed (m : Mach n) : Mach n :=
  { m with sched := m.upcoming.2, parts := if m.sched.isEmpty then m.parts + 1 else m.parts }

/-- The host's move (rules R88, R102). -/
def hostMove (s : State) : Host.Outcome State Fault Refusal := liftOutcome s.width (hostTurn s.mach)

/-- The engine's move: while the reset input is asserted no engine step takes place (rules R103, R190). -/
def engineMove (s : State) : Host.Outcome State Fault Refusal :=
  if s.mach.resetIn then .next s else engineTurn s

/-- One turn of the machine (rules R68, R102, R190). -/
def turn (t : Turn) (s : State) : Host.Outcome State Fault Refusal :=
  match t with
  | .host => hostMove s
  | .engine => engineMove s
  | .assertReset => .next ⟨s.width, assertReset s.mach⟩
  | .releaseReset => .next ⟨s.width, releaseReset s.mach⟩
  | .due => if s.mach.engineIsDue then engineMove s else hostMove s

end Sys2Proof.Machine
end

