-- ==== Sys2Proof/Machine/Step.lean ====
section
/-! DEFINITION. One step of the machine: the turn the interleaving gives it. -/

namespace Sys2Proof.Machine

/-- One step: the turn that comes next, which is used up (rules R68, R102). -/
def step (s : State) : Host.Outcome State Fault Refusal :=
  turn s.mach.upcoming.1 ⟨s.width, s.mach.turnUsed⟩

/-- `s` with the command word `w` latched where the engine's next step takes its command from: the
word is accepted (rule R100) by a block that is not busy, and the next turn is the engine's. -/
def State.withFetchWord (s : State) (nbits w : Nat) : State :=
  ⟨s.width, { s.mach.setBlk (s.mach.blk.accept (BitVec.ofNat s.width.bits (w % 2 ^ nbits))) with
    resetIn := false, sched := [.engine] }⟩

end Sys2Proof.Machine
end

