-- ==== Sys2Proof/Machine/Pseudo.lean ====
section
/-! DEFINITION. The pseudo-commands and host procedures of the spec, as host scripts. Names and labels
are the caller's. -/

namespace Sys2Proof.Machine

/-- `run OP, A, B, C`; `C` is omitted (`none`) when the command ignores `OPC` (rule R90). -/
def run (op a b : HostVal) (c : Option HostVal) : List Stmt :=
  [.wr .opa a, .wr .opb b] ++
    (match c with
      | none => []
      | some c => [.wr .opc c]) ++
    [.wr .cmd op, .poll .statusDone (.num 1)]

/-- `gcd g, a, b` (rule R91). -/
def pseudoGcd (g : Nat) (a b : HostVal) : List Stmt :=
  run (.num 0x1) a b none ++ [.rd .result g]

/-- `inv d, e, m`; the status read is bound to `st` (rule R91). -/
def pseudoInv (d st : Nat) (e m : HostVal) : List Stmt :=
  run (.num 0x2) e m none ++ [.rd .result d, .rd .status st]

/-- `modexp r, x, k, n` (rule R91). -/
def pseudoModexp (r : Nat) (x k n : HostVal) : List Stmt :=
  run (.num 0x3) x k (some n) ++ [.rd .result r]

/-- `encrypt c, m, e, n` (rule R91). -/
def pseudoEncrypt (c : Nat) (m e n : HostVal) : List Stmt := pseudoModexp c m e n

/-- `decrypt m, c, d, n` (rule R91). -/
def pseudoDecrypt (m : Nat) (c d n : HostVal) : List Stmt := pseudoModexp m c d n

/-- `modmul r, a, b, n` (rule R91). -/
def pseudoModmul (r : Nat) (a b n : HostVal) : List Stmt :=
  run (.num 0x4) a b (some n) ++ [.rd .result r]

/-- `ack`: clear `DONE` (rule R91). -/
def pseudoAck : List Stmt := [.wr .status (.num 0x2)]

/-- `clrovr`: clear `OVR` (rule R91). -/
def pseudoClrovr : List Stmt := [.wr .status (.num 0x4)]

/-- `srst`: soft reset (rule R91). -/
def pseudoSrst : List Stmt := [.wr .ctrl (.num 0x4)]

/-- `derive_private_exponent(e, phi)` is `inv d, e, phi` (rule R92). -/
def derivePrivateExponent (d st : Nat) (e phi : HostVal) : List Stmt := pseudoInv d st e phi

/-- The candidates of `select_public_exponent`, in the document's order (rule R92). -/
def exponentCandidates : List Nat := [3, 5, 17, 257, 65537]

/-- The random fallback of `select_public_exponent`, at label `fallback`: candidates drawn from the open
range `(2, phi)` until one has `g = 1` (rules R6, R92; I4, log entry 21). -/
def exponentFallback (c g fallback : Nat) (phi : HostVal) : List Stmt :=
  [.label fallback, .draw c phi] ++ pseudoGcd g (.name c) phi ++
    [.ifGoto { name := g, field := none, eq := false, rhs := 1 } fallback]

/-- `select_public_exponent(phi)`: `gcd g, c, phi` for each candidate, to label `haveE` at the first with
`g = 1`; only when none qualifies, the random fallback. The candidate chosen stands in `OPA` then and is
returned in the name `e`, as in program P1 (rules R6, R92). -/
def selectPublicExponent (e c g haveE fallback : Nat) (phi : HostVal) : List Stmt :=
  (exponentCandidates.map fun x =>
    pseudoGcd g (.num x) phi ++ [.ifGoto { name := g, field := none, eq := true, rhs := 1 } haveE]).flatten
    ++ exponentFallback c g fallback phi ++ [.label haveE, .rd .opa e]

/-- `derive_totient(p, q)`: host arithmetic (rules R6, R92). -/
def deriveTotient (p q : Nat) : Nat := (p - 1) * (q - 1)

/-- `derive_key_pair(p, q)`: the totient, the public exponent in the name `e`, the private one in `d`, its
status in `st` (rules R6, R92). -/
def deriveKeyPair (e d st c g haveE fallback p q : Nat) : List Stmt :=
  selectPublicExponent e c g haveE fallback (.num (deriveTotient p q)) ++
    derivePrivateExponent d st (.name e) (.num (deriveTotient p q))

end Sys2Proof.Machine
end

