-- ==== Sys2Proof/Safety.lean ====
section
/-! DEFINITION. The terms the statements use: runs, the counts a command takes, what a completed command
has delivered, and the invariant of the machine. -/

namespace Sys2Proof.Machine

variable {n : Nat}

/-- `k` steps of the machine, stopping at the first fault or refusal. -/
def steps : Nat → State → Host.Outcome State Fault Refusal
  | 0, s => .next s
  | k + 1, s =>
    match step s with
    | .next t => steps k t
    | .fault f => .fault f
    | .refused r => .refused r

/-- Who moves next: the turn that comes next, a due turn being that of whoever is due (rules R68, R108). -/
def Mach.mover (m : Mach n) : Turn :=
  match m.upcoming.1 with
  | .due => if m.engineIsDue then .engine else .host
  | .host => .host
  | .engine => .engine
  | .assertReset => .assertReset
  | .releaseReset => .releaseReset

/-- A command runs and the engine moves next (rules R68, R103). -/
def Mach.engineIsNext (m : Mach n) : Prop :=
  m.resetIn = false ∧ m.blk.eng.fsm ≠ .idle ∧ m.mover = .engine

/-- The host moves next (rules R68, R102). -/
def Mach.hostIsNext (m : Mach n) : Prop := m.mover = .host

/-- `bitlen(v)`, the bits of `v` without leading zeros (rule R11). -/
def bitlen (v : Nat) : Nat := if v = 0 then 0 else Nat.log2 v + 1

/-- Iterations of the remainder loop from `(a, b)`, within `fuel` of them (rule R121). -/
def euclidItersFuel : Nat → Nat → Nat → Nat
  | 0, _, _ => 0
  | fuel + 1, a, b => if b = 0 then 0 else euclidItersFuel fuel b (a % b) + 1

/-- Iterations of the remainder loop from `(a, b)`: at most `b` of them, since `b` falls at each (rule R122). -/
def euclidIters (a b : Nat) : Nat := euclidItersFuel b a b

/-- What the completion registers hold, as numbers. -/
def Regs.holds (r : Regs n) (err : ErrCode) (result aux iter : Nat) : Prop :=
  r.err = err ∧ r.result.toNat = result ∧ r.aux.toNat = aux ∧ r.iter.toNat = iter

/-- The completion registers hold what `GCD` of the latched operands gives (rules R86, R123). -/
def DeliveredGcd (r : Regs n) (e : Engine n) : Prop :=
  r.holds .none (Nat.gcd e.la.toNat e.lb.toNat) 0 (euclidIters e.la.toNat e.lb.toNat)

/-- The completion registers hold what `INV` of the latched operands gives: the gcd, the iteration
count, the error code of rule R136, a `RESULT` in `[0, max(m, 1)]` with `e·RESULT ≡ gcd (mod m)`, and,
without an error, the inverse in `[0, m)` (rules R132, R133, R135, R136). -/
def DeliveredInv (r : Regs n) (e : Engine n) : Prop :=
  r.aux.toNat = Nat.gcd e.la.toNat e.lb.toNat ∧
  r.iter.toNat = euclidIters e.lb.toNat e.la.toNat ∧
  (r.err = if Nat.gcd e.la.toNat e.lb.toNat = 1 ∧ 2 ≤ e.lb.toNat then .none else .invalidInverse) ∧
  r.result.toNat ≤ max e.lb.toNat 1 ∧
  (e.lb.toNat : Int) ∣ e.la.toNat * r.result.toNat - Nat.gcd e.la.toNat e.lb.toNat ∧
  (r.err = .none → r.result.toNat < e.lb.toNat ∧ e.la.toNat * r.result.toNat % e.lb.toNat = 1)

/-- The completion registers hold what `MODEXP` of the latched operands gives (rules R140, R141, R144, R165). -/
def DeliveredModexp (r : Regs n) (e : Engine n) : Prop :=
  if e.lc.toNat = 0 then r.holds .modulusZero 0 0 0
  else if e.rc = true ∧ e.lc.toNat ≤ e.la.toNat then r.holds .messageOutOfRange 0 0 0
  else r.holds .none (e.la.toNat ^ e.lb.toNat % e.lc.toNat) 0 (bitlen e.lb.toNat)

/-- The completion registers hold what `MODMUL` of the latched operands gives (rules R139, R147). -/
def DeliveredModmul (r : Regs n) (e : Engine n) : Prop :=
  if e.lc.toNat = 0 then r.holds .modulusZero 0 0 0
  else r.holds .none (e.la.toNat * e.lb.toNat % e.lc.toNat) 0 1

/-- The completion registers hold what the latched command word and operands give. -/
def Delivered (r : Regs n) (e : Engine n) : Prop :=
  match decode e.cmd with
  | none => r.holds .illegalCommand 0 0 0
  | some .gcd => DeliveredGcd r e
  | some .inv => DeliveredInv r e
  | some .modexp => DeliveredModexp r e
  | some .modmul => DeliveredModmul r e

/-- What holds in `GCD_LOOP`: the gcd is that of the operands and the counter has counted (rules R121, R123). -/
structure GcdLoopInv (e : Engine n) : Prop where
  cmd : decode e.cmd = some .gcd
  gcd : Nat.gcd e.a.toNat e.b.toNat = Nat.gcd e.la.toNat e.lb.toNat
  count : e.cnt.toNat + euclidIters e.a.toNat e.b.toNat = euclidIters e.la.toNat e.lb.toNat

/-- What holds in `INV_LOOP`: the invariant of rule R134, `a ≡ x0·e` and `b ≡ x1·e (mod m)`, and the
facts its bounds on the coefficients rest on. -/
structure InvLoopInv (e : Engine n) : Prop where
  cmd : decode e.cmd = some .inv
  gcd : Nat.gcd e.a.toNat e.b.toNat = Nat.gcd e.la.toNat e.lb.toNat
  count : e.cnt.toNat + euclidIters e.a.toNat e.b.toNat = euclidIters e.lb.toNat e.la.toNat
  congA : (e.lb.toNat : Int) ∣ e.x0 * e.la.toNat - e.a.toNat
  congB : (e.lb.toNat : Int) ∣ e.x1 * e.la.toNat - e.b.toNat
  signs : e.x0 * e.x1 ≤ 0
  det : e.x1.natAbs * e.a.toNat + e.x0.natAbs * e.b.toNat = e.lb.toNat
  order : e.b.toNat ≤ e.a.toNat ∨ (e.x0 = 0 ∧ e.x1 = 1)
  growth : e.x0.natAbs ≤ e.x1.natAbs ∨ (e.x0 = 1 ∧ e.x1 = 0)
  start : e.a = 0 → e.x0 = 0 ∧ e.x1 = 1

/-- What holds in `EXP_LOOP`: the command passed its checks, and the invariant of rule R144. -/
structure ExpLoopInv (e : Engine n) : Prop where
  cmd : decode e.cmd = some .modexp
  modulus : e.lc ≠ 0
  range : e.rc = true → e.la.toNat < e.lc.toNat
  acc : e.acc.toNat < e.lc.toNat
  base : e.base.toNat < e.lc.toNat
  power : e.acc.toNat * e.base.toNat ^ e.exp.toNat % e.lc.toNat = e.la.toNat ^ e.lb.toNat % e.lc.toNat
  count : e.cnt.toNat + bitlen e.exp.toNat = bitlen e.lb.toNat

/-- The invariant of the block. -/
structure Block.Inv (b : Block n) : Prop where
  /-- While `BUSY = 1`, `DONE` and `ERR` read 0 (rules R30, R32, R100). -/
  busyClear : b.eng.fsm ≠ .idle → b.regs.done = false ∧ b.regs.err = .none
  check : b.eng.fsm = .check → b.eng.cnt = 0
  gcdLoop : b.eng.fsm = .gcdLoop → GcdLoopInv b.eng
  invLoop : b.eng.fsm = .invLoop → InvLoopInv b.eng
  expLoop : b.eng.fsm = .expLoop → ExpLoopInv b.eng
  /-- While `DONE = 1` the completion registers are those of the latched command (rules R69, R109). -/
  delivered : b.regs.done = true → Delivered b.regs b.eng
  /-- `ITER` never exceeds `2·OPW + 2` (rule R38). -/
  iterBound : b.regs.iter.toNat ≤ 2 * n + 2

/-- The invariant of the machine, under every interleaving and every host program. -/
structure Mach.Inv (m : Mach n) : Prop where
  block : m.blk.Inv
  /-- While the reset input is asserted the block is in its reset state (rules R190, R192). -/
  inReset : m.resetIn = true → m.blk = Block.reset n
  pos : m.host.pos ≤ m.host.script.length
  /-- A bound name holds a value read from a register (rule R88) or drawn below one that a register holds
  (log entry 21), so one of `OPW` bits. -/
  names : ∀ p ∈ m.host.names, p.2 < 2 ^ n
  sorted : (m.host.names.map Prod.fst).Pairwise (· < ·)

end Sys2Proof.Machine
end

