-- ==== Sys2Proof/WellFormed.lean ====
section
/-! DEFINITION. Which commands, host-script statements and host scripts are well formed. -/

namespace Sys2Proof

/-- A command is well formed when its opcode is one of the four of rule R82. It has no operand field
(rule R80), so there is nothing else to check. -/
def Instr.wf (i : Instr) : Bool := decide (1 ≤ i.opcode.toNat ∧ i.opcode.toNat ≤ 4)

/-- A command word is legal exactly when its `MBZ` bits are zero and its `OP` is 1 to 4 (rule R81). -/
def legalWord {n : Nat} (v : Word n) : Bool :=
  decide (v.toNat / 16 = 0 ∧ 1 ≤ v.toNat % 16 ∧ v.toNat % 16 ≤ 4)

namespace Machine

/-- The names a script binds, each by some `rd` or draw (rules R88, R92). -/
def boundNames : List Stmt → List Nat
  | [] => []
  | .rd _ k :: rest | .draw k _ :: rest => k :: boundNames rest
  | .wr _ _ :: rest | .poll _ _ :: rest | .label _ :: rest | .ifGoto _ _ :: rest => boundNames rest

/-- The labels a script defines, in order (rule R88). -/
def definedLabels : List Stmt → List Nat
  | [] => []
  | .label l :: rest => l :: definedLabels rest
  | .wr _ _ :: rest | .rd _ _ :: rest | .poll _ _ :: rest | .ifGoto _ _ :: rest | .draw _ _ :: rest =>
    definedLabels rest

/-- A `value` is well formed: a number that a register of `w` can hold (rule R207), or a name that the
script binds (rule R88). -/
def HostVal.wf (w : OpWidth) (bound : List Nat) : HostVal → Bool
  | .num v => decide (v < 2 ^ w.bits)
  | .name k => bound.contains k

/-- A statement is well formed in a script: its value is, its name is bound, its label is defined, and a
field in an `if` is a field of the register that some `rd` binds the name from (rule R88). -/
def Stmt.wf (w : OpWidth) (script : List Stmt) : Stmt → Bool
  | .wr _ v => v.wf w (boundNames script)
  | .rd _ _ => true
  | .poll _ v => v.wf w (boundNames script)
  | .label _ => true
  | .draw _ v => v.wf w (boundNames script)
  | .ifGoto c l =>
    (definedLabels script).contains l &&
      (match c.field with
        | none => (boundNames script).contains c.name
        | some f => script.contains (.rd f.reg c.name))

/-- A host script is well formed: every statement is, and no label is defined twice. -/
def scriptWf (w : OpWidth) (script : List Stmt) : Bool :=
  script.all (Stmt.wf w script) && decide (definedLabels script).Nodup

end Machine
end Sys2Proof
end

