-- ==== Sys2Proof/Certificates/Slice0/Obligations.lean ====
section
/-! DEFINITION. The statements about the model, for the provers. -/

open Sys2Proof Sys2Proof.Machine

/-! ## Encoding -/

/-- Rule R82: the words of the opcode map decode to their commands; rule R83: the reserved opcodes, and
words with an `MBZ` bit set, do not decode. -/
def Obligations.OpcodeMapWordsDecode : Prop :=
  decode 0b00000000000000000000000000000001#32 = some .gcd ∧
  decode 0b00000000000000000000000000000010#32 = some .inv ∧
  decode 0b00000000000000000000000000000011#32 = some .modexp ∧
  decode 0b00000000000000000000000000000100#32 = some .modmul ∧
  decode 0x00000000#32 = none ∧ decode 0x00000005#32 = none ∧ decode 0x0000000F#32 = none ∧
  decode 0x00000010#32 = none ∧ decode 0x00000011#32 = none ∧ decode 0x00000101#32 = none ∧
  decode 0x80000000#32 = none ∧ decode 0xFFFFFFFF#32 = none ∧
  decode 0x0000000100000001#64 = none

/-- Rule R87 with the words of rule R82, at every width: a command word decodes to a command exactly
when it is that command's encoding. -/
def Obligations.DecodeIsExactlyEncode : Prop :=
  ∀ (w : OpWidth) (v : Word w.bits) (i : Instr), decode v = some i ↔ v = encode w.bits i

/-- Rule R81, at every width: a command word is legal exactly when `v[OPW−1:4] = 0` and `v[3:0]` is one
of 1, 2, 3, 4, which is to say when its low 32 bits are one of the four match values of rule R82 and its
other bits are zero; every other word is illegal. -/
def Obligations.LegalWordsAreTheOnesThatDecode : Prop :=
  ∀ (w : OpWidth) (v : Word w.bits),
    ((decode v).isSome = true ↔
      v.toNat / 16 = 0 ∧ (v.toNat % 16 = 1 ∨ v.toNat % 16 = 2 ∨ v.toNat % 16 = 3 ∨ v.toNat % 16 = 4)) ∧
    ((decode v).isSome = true ↔
      (v.toNat % 2 ^ 32 = 0x00000001 ∨ v.toNat % 2 ^ 32 = 0x00000002 ∨ v.toNat % 2 ^ 32 = 0x00000003 ∨
        v.toNat % 2 ^ 32 = 0x00000004) ∧ v.toNat / 2 ^ 32 = 0) ∧
    ((decode v).isSome = true ↔ legalWord v = true)

/-! ## Steps of the engine agent -/

/-- Rules R103, R104: on the engine's turn, a step is the meaning of the command that `eng.fsm` and, at
`CHECK`, the latched command word choose; the turn is used up. -/
def Obligations.StepRunsTheDecodedCommand : Prop :=
  ∀ (w : OpWidth) (m : Mach w.bits), m.engineIsNext →
    (∀ i, m.blk.eng.fsm = .check → decode m.blk.eng.cmd = some i →
      step ⟨w, m⟩ = exec i ⟨w, m.turnUsed⟩) ∧
    (m.blk.eng.fsm = .gcdLoop → step ⟨w, m⟩ = exec .gcd ⟨w, m.turnUsed⟩) ∧
    (m.blk.eng.fsm = .invLoop → step ⟨w, m⟩ = exec .inv ⟨w, m.turnUsed⟩) ∧
    (m.blk.eng.fsm = .expLoop → step ⟨w, m⟩ = exec .modexp ⟨w, m.turnUsed⟩)

/-- Rule R83: the check step of an illegal word completes with `ILLEGAL_COMMAND` and zero results. -/
def Obligations.IllegalWordCompletesWithIllegalCommand : Prop :=
  ∀ (w : OpWidth) (m : Mach w.bits), m.engineIsNext → m.blk.eng.fsm = .check →
    decode m.blk.eng.cmd = none →
    step ⟨w, m⟩ = .next ⟨w, m.turnUsed.setBlk
      { regs := { m.blk.regs with result := 0, aux := 0, iter := 0, err := .illegalCommand, done := true },
        eng := { m.blk.eng with fsm := .idle } }⟩

/-- Rule R186: when `eng.fsm = IDLE` the engine takes no step: an engine turn changes nothing. That such a
turn can come, and passes, is the model's choice (log entry 6). -/
def Obligations.IdleEngineTakesNoStep : Prop :=
  ∀ (w : OpWidth) (m : Mach w.bits), m.blk.eng.fsm = .idle →
    m.mover = .engine → step ⟨w, m⟩ = .next ⟨w, m.turnUsed⟩

/-- Rule R103: no engine step of a command is enabled where `eng.fsm` is at neither `CHECK` nor that
command's loop; in particular none is when `eng.fsm = IDLE`. -/
def Obligations.NoEngineStepOfACommandElsewhere : Prop :=
  ∀ (w : OpWidth) (m : Mach w.bits),
    (m.blk.eng.fsm ≠ .check → m.blk.eng.fsm ≠ .gcdLoop →
      exec .gcd ⟨w, m⟩ = .refused .engineStepNotEnabled) ∧
    (m.blk.eng.fsm ≠ .check → m.blk.eng.fsm ≠ .invLoop →
      exec .inv ⟨w, m⟩ = .refused .engineStepNotEnabled) ∧
    (m.blk.eng.fsm ≠ .check → m.blk.eng.fsm ≠ .expLoop →
      exec .modexp ⟨w, m⟩ = .refused .engineStepNotEnabled) ∧
    (m.blk.eng.fsm ≠ .check → exec .modmul ⟨w, m⟩ = .refused .engineStepNotEnabled)

/-! ## The commands, step by step -/

/-- Rule R120: the command word and the check step of `GCD`. -/
def Obligations.GcdCheckStepLoadsTheOperands : Prop :=
  ∀ (w : OpWidth) (m : Mach w.bits), m.blk.eng.fsm = .check →
    (decode m.blk.eng.cmd = some .gcd ↔ m.blk.eng.cmd.toNat = 0x00000001) ∧
    exec .gcd ⟨w, m⟩ = .next ⟨w, m.setBlk { m.blk with eng := { m.blk.eng with
      a := m.blk.eng.la, b := m.blk.eng.lb, fsm := .gcdLoop } }⟩

/-- Rule R121: the loop step of `GCD`, completing and iterating. -/
def Obligations.GcdLoopStepIteratesOrCompletes : Prop :=
  ∀ (w : OpWidth) (m : Mach w.bits), m.blk.eng.fsm = .gcdLoop →
    (m.blk.eng.b = 0 →
      exec .gcd ⟨w, m⟩ = .next ⟨w, m.setBlk
        { regs := { m.blk.regs with
            result := m.blk.eng.a, aux := 0, iter := m.blk.eng.cnt, err := .none, done := true },
          eng := { m.blk.eng with fsm := .idle } }⟩) ∧
    (m.blk.eng.b ≠ 0 →
      exec .gcd ⟨w, m⟩ = .next ⟨w, m.setBlk { m.blk with eng := { m.blk.eng with
        a := m.blk.eng.b, b := BitVec.ofNat _ (m.blk.eng.a.toNat % m.blk.eng.b.toNat),
        cnt := m.blk.eng.cnt + 1 } }⟩)

/-- Rule R130: the command word and the check step of `INV`. -/
def Obligations.InvCheckStepLoadsTheOperands : Prop :=
  ∀ (w : OpWidth) (m : Mach w.bits), m.blk.eng.fsm = .check →
    (decode m.blk.eng.cmd = some .inv ↔ m.blk.eng.cmd.toNat = 0x00000002) ∧
    exec .inv ⟨w, m⟩ = .next ⟨w, m.setBlk { m.blk with eng := { m.blk.eng with
      a := m.blk.eng.lb, b := m.blk.eng.la, x0 := 0, x1 := 1, fsm := .invLoop } }⟩

/-- Rule R131: an iterating loop step of `INV`; the new `eng.b` is `a − q·b`, which is `a mod b`. -/
def Obligations.InvLoopStepIterates : Prop :=
  ∀ (w : OpWidth) (m : Mach w.bits), m.blk.eng.fsm = .invLoop → m.blk.eng.b ≠ 0 →
    ∃ (q : Nat) (b' : Word w.bits),
      q = m.blk.eng.a.toNat / m.blk.eng.b.toNat ∧
      (b'.toNat : Int) = m.blk.eng.a.toNat - q * m.blk.eng.b.toNat ∧
      b'.toNat = m.blk.eng.a.toNat % m.blk.eng.b.toNat ∧
      exec .inv ⟨w, m⟩ = .next ⟨w, m.setBlk { m.blk with eng := { m.blk.eng with
        a := m.blk.eng.b, b := b', x0 := m.blk.eng.x1,
        x1 := m.blk.eng.x0 - q * m.blk.eng.x1, cnt := m.blk.eng.cnt + 1 } }⟩

/-- Rule R133: finalize, in the loop step that finds `eng.b = 0`. The value written to `RESULT` is `d`
itself wherever `d` fits the register, which it does in every state the invariant admits. -/
def Obligations.InvFinalizeCompletes : Prop :=
  ∀ (w : OpWidth) (m : Mach w.bits), m.blk.eng.fsm = .invLoop → m.blk.eng.b = 0 →
    ∃ (d : Int) (r : Word w.bits) (err : ErrCode),
      d = (if m.blk.eng.x0 < 0 then m.blk.eng.x0 + m.blk.eng.lb.toNat else m.blk.eng.x0) ∧
      err = (if m.blk.eng.a.toNat = 1 ∧ 2 ≤ m.blk.eng.lb.toNat then ErrCode.none else .invalidInverse) ∧
      (0 ≤ d → d < 2 ^ w.bits → (r.toNat : Int) = d) ∧
      (m.Inv → 0 ≤ d ∧ d ≤ max m.blk.eng.lb.toNat 1 ∧
        m.blk.eng.a.toNat = Nat.gcd m.blk.eng.la.toNat m.blk.eng.lb.toNat) ∧
      exec .inv ⟨w, m⟩ = .next ⟨w, m.setBlk
        { regs := { m.blk.regs with
            result := r, aux := m.blk.eng.a, iter := m.blk.eng.cnt, err := err, done := true },
          eng := { m.blk.eng with fsm := .idle } }⟩

/-- Rule R140: the command word and the check step of `MODEXP`: the modulus test, the range test, the load. -/
def Obligations.ModexpCheckStepChecksThenLoads : Prop :=
  ∀ (w : OpWidth) (m : Mach w.bits), m.blk.eng.fsm = .check →
    (decode m.blk.eng.cmd = some .modexp ↔ m.blk.eng.cmd.toNat = 0x00000003) ∧
    (m.blk.eng.lc = 0 →
      exec .modexp ⟨w, m⟩ = .next ⟨w, m.setBlk
        { regs := { m.blk.regs with result := 0, aux := 0, iter := 0, err := .modulusZero, done := true },
          eng := { m.blk.eng with fsm := .idle } }⟩) ∧
    (m.blk.eng.lc ≠ 0 → m.blk.eng.rc = true → m.blk.eng.lc.toNat ≤ m.blk.eng.la.toNat →
      exec .modexp ⟨w, m⟩ = .next ⟨w, m.setBlk
        { regs := { m.blk.regs with
            result := 0, aux := 0, iter := 0, err := .messageOutOfRange, done := true },
          eng := { m.blk.eng with fsm := .idle } }⟩) ∧
    (m.blk.eng.lc ≠ 0 → (m.blk.eng.rc = false ∨ m.blk.eng.la.toNat < m.blk.eng.lc.toNat) →
      exec .modexp ⟨w, m⟩ = .next ⟨w, m.setBlk { m.blk with eng := { m.blk.eng with
        acc := BitVec.ofNat _ (1 % m.blk.eng.lc.toNat),
        base := BitVec.ofNat _ (m.blk.eng.la.toNat % m.blk.eng.lc.toNat),
        exp := m.blk.eng.lb, fsm := .expLoop } }⟩)

/-- Rule R142: the loop step of `MODEXP`. The iterating clause is for `lc ≠ 0`: rule R139's multiplier
is not defined, and rule R140 never enters the loop, with `n = 0`. -/
def Obligations.ModexpLoopStepIteratesOrCompletes : Prop :=
  ∀ (w : OpWidth) (m : Mach w.bits), m.blk.eng.fsm = .expLoop →
    (m.blk.eng.exp = 0 →
      exec .modexp ⟨w, m⟩ = .next ⟨w, m.setBlk
        { regs := { m.blk.regs with
            result := m.blk.eng.acc, aux := 0, iter := m.blk.eng.cnt, err := .none, done := true },
          eng := { m.blk.eng with fsm := .idle } }⟩) ∧
    (m.blk.eng.exp ≠ 0 → m.blk.eng.lc ≠ 0 →
      exec .modexp ⟨w, m⟩ = .next ⟨w, m.setBlk { m.blk with eng := { m.blk.eng with
        acc := if m.blk.eng.exp.toNat % 2 = 1
          then BitVec.ofNat _ (m.blk.eng.acc.toNat * m.blk.eng.base.toNat % m.blk.eng.lc.toNat)
          else m.blk.eng.acc,
        base := BitVec.ofNat _ (m.blk.eng.base.toNat * m.blk.eng.base.toNat % m.blk.eng.lc.toNat),
        exp := BitVec.ofNat _ (m.blk.eng.exp.toNat / 2), cnt := m.blk.eng.cnt + 1 } }⟩)

/-- Rule R147: the command word of `MODMUL`, and the whole command in its check step. -/
def Obligations.ModmulCompletesInItsCheckStep : Prop :=
  ∀ (w : OpWidth) (m : Mach w.bits), m.blk.eng.fsm = .check →
    (decode m.blk.eng.cmd = some .modmul ↔ m.blk.eng.cmd.toNat = 0x00000004) ∧
    (m.blk.eng.lc = 0 →
      exec .modmul ⟨w, m⟩ = .next ⟨w, m.setBlk
        { regs := { m.blk.regs with result := 0, aux := 0, iter := 0, err := .modulusZero, done := true },
          eng := { m.blk.eng with fsm := .idle } }⟩) ∧
    (m.blk.eng.lc ≠ 0 →
      exec .modmul ⟨w, m⟩ = .next ⟨w, m.setBlk
        { regs := { m.blk.regs with
            result := BitVec.ofNat _ (m.blk.eng.la.toNat * m.blk.eng.lb.toNat % m.blk.eng.lc.toNat),
            aux := 0, iter := 1, err := .none, done := true },
          eng := { m.blk.eng with fsm := .idle } }⟩)

/-- Rule R139: the multiplier is exact for every modulus `n ≥ 1`, odd or even, and its result is in
`[0, n − 1]`. -/
def Obligations.ModularMultiplierIsExact : Prop :=
  ∀ (w : OpWidth) (x y m : Word w.bits), m ≠ 0 →
    (modmul x y m).toNat = x.toNat * y.toNat % m.toNat ∧ (modmul x y m).toNat < m.toNat

/-- Rule R165: with `OPC = 0` a `MODEXP` reports `MODULUS_ZERO`, whatever the range check says, and an
illegal word reports `ILLEGAL_COMMAND` whatever the operands are: the registers after the step. -/
def Obligations.ErrorPriority : Prop :=
  ∀ (w : OpWidth) (m : Mach w.bits), m.engineIsNext → m.blk.eng.fsm = .check →
    ∃ b : Block w.bits,
      step ⟨w, m⟩ = .next ⟨w, m.turnUsed.setBlk b⟩ ∧
      (decode m.blk.eng.cmd = none → b.regs.err = .illegalCommand) ∧
      (decode m.blk.eng.cmd = some .modexp → m.blk.eng.lc = 0 → b.regs.err = .modulusZero) ∧
      (decode m.blk.eng.cmd = some .modexp → m.blk.eng.lc ≠ 0 → m.blk.eng.rc = true →
        m.blk.eng.lc.toNat ≤ m.blk.eng.la.toNat → b.regs.err = .messageOutOfRange) ∧
      (decode m.blk.eng.cmd = some .modmul → m.blk.eng.lc = 0 → b.regs.err = .modulusZero)

/-! ## Frames -/

/-- What a step of any command leaves unchanged (rules R103, R106, R109, R162): everything outside the
block, `CTRL`, `OVR`, the operand registers, the latched command word, `RANGE_CHK` and operands; and,
unless the step completes the command, every host-visible register. -/
def Obligations.CommandStepFrame : Prop :=
  ∀ (i : Instr) (w : OpWidth) (m : Mach w.bits) (t : State), exec i ⟨w, m⟩ = .next t →
    ∃ b : Block w.bits, t = ⟨w, m.setBlk b⟩ ∧
      b.regs.irqEn = m.blk.regs.irqEn ∧ b.regs.rangeChk = m.blk.regs.rangeChk ∧
      b.regs.ovr = m.blk.regs.ovr ∧
      b.regs.opa = m.blk.regs.opa ∧ b.regs.opb = m.blk.regs.opb ∧ b.regs.opc = m.blk.regs.opc ∧
      b.eng.cmd = m.blk.eng.cmd ∧ b.eng.rc = m.blk.eng.rc ∧
      b.eng.la = m.blk.eng.la ∧ b.eng.lb = m.blk.eng.lb ∧ b.eng.lc = m.blk.eng.lc ∧
      (b.eng.fsm ≠ .idle → b.regs = m.blk.regs) ∧
      (b.eng.fsm = .idle → b.regs.done = true)

/-- The working registers a command does not use keep their values (rules R120, R121, R130, R131, R140,
R142, R147). -/
def Obligations.WorkingRegisterFrame : Prop :=
  ∀ (w : OpWidth) (m : Mach w.bits) (b : Block w.bits),
    (exec .gcd ⟨w, m⟩ = .next ⟨w, m.setBlk b⟩ →
      b.eng.x0 = m.blk.eng.x0 ∧ b.eng.x1 = m.blk.eng.x1 ∧ b.eng.acc = m.blk.eng.acc ∧
      b.eng.base = m.blk.eng.base ∧ b.eng.exp = m.blk.eng.exp) ∧
    (exec .inv ⟨w, m⟩ = .next ⟨w, m.setBlk b⟩ →
      b.eng.acc = m.blk.eng.acc ∧ b.eng.base = m.blk.eng.base ∧ b.eng.exp = m.blk.eng.exp) ∧
    (exec .modexp ⟨w, m⟩ = .next ⟨w, m.setBlk b⟩ →
      b.eng.a = m.blk.eng.a ∧ b.eng.b = m.blk.eng.b ∧ b.eng.x0 = m.blk.eng.x0 ∧
      b.eng.x1 = m.blk.eng.x1) ∧
    (exec .modmul ⟨w, m⟩ = .next ⟨w, m.setBlk b⟩ →
      b.eng.a = m.blk.eng.a ∧ b.eng.b = m.blk.eng.b ∧ b.eng.x0 = m.blk.eng.x0 ∧
      b.eng.x1 = m.blk.eng.x1 ∧ b.eng.acc = m.blk.eng.acc ∧ b.eng.base = m.blk.eng.base ∧
      b.eng.exp = m.blk.eng.exp ∧ b.eng.cnt = m.blk.eng.cnt)

/-! ## The command lifecycle at the port -/

/-- Rule R100: what an accepted `CMD` write does, a legal word or not, and what it leaves unchanged. -/
def Obligations.CmdWriteWhileIdleIsAccepted : Prop :=
  ∀ (w : OpWidth) (b : Block w.bits) (v : Word w.bits), b.eng.fsm = .idle →
    portWrite b 0x4#4 v =
      { regs := { b.regs with done := false, err := .none },
        eng := { b.eng with
          cmd := v, rc := b.regs.rangeChk, la := b.regs.opa, lb := b.regs.opb, lc := b.regs.opc,
          cnt := 0, fsm := .check } }

/-- Rule R101: a `CMD` write while `BUSY = 1` sets `OVR` and changes nothing else. -/
def Obligations.CmdWriteWhileBusyIsDropped : Prop :=
  ∀ (w : OpWidth) (b : Block w.bits) (v : Word w.bits), b.eng.fsm ≠ .idle →
    portWrite b 0x4#4 v = { b with regs := { b.regs with ovr := true } }

/-- Rule R109: no port operation changes the engine's working state but an accepted `CMD` write and a
soft reset. -/
def Obligations.OnlyAcceptanceAndResetReachTheEngine : Prop :=
  ∀ (w : OpWidth) (b : Block w.bits) (idx : BitVec 4) (v : Word w.bits),
    ¬ (idx = 0x4#4 ∧ b.eng.fsm = .idle) → ¬ (idx = 0x2#4 ∧ v.getLsbD 2 = true) →
      (portWrite b idx v).eng = b.eng

/-- Rules R109, R201: a port write that is no reset and no acceptance does not change what the running
command does. The step taken after the write leaves the same engine, and when it completes the command,
the same completion registers, as the step taken without it. -/
def Obligations.PortWritesDoNotDisturbARunningCommand : Prop :=
  ∀ (i : Instr) (w : OpWidth) (m : Mach w.bits) (b : Block w.bits) (idx : BitVec 4) (v : Word w.bits),
    m.blk.eng.fsm ≠ .idle → ¬ (idx = 0x2#4 ∧ v.getLsbD 2 = true) → exec i ⟨w, m⟩ = .next ⟨w, m.setBlk b⟩ →
    ∃ b' : Block w.bits,
      exec i ⟨w, m.setBlk (portWrite m.blk idx v)⟩ = .next ⟨w, m.setBlk b'⟩ ∧ b'.eng = b.eng ∧
      b'.regs.result = b.regs.result ∧ b'.regs.aux = b.regs.aux ∧ b'.regs.iter = b.regs.iter ∧
      b'.regs.err = b.regs.err ∧ (b.eng.fsm = .idle → b'.regs.done = true)

/-! ## Whole commands -/

/-- Rules R105, R123, R209: from the check step of a `GCD` command a run of `ITER + 2` engine steps
completes it with `RESULT = gcd(a, b)`, `AUX = 0`, `ERR = NONE`, and nothing else of the register file
changed. The engine steps are given as the turns that come next (log entry 5); under other interleavings
the result is that of `EveryRunningCommandCompletes`. -/
def Obligations.GcdCommandDeliversTheGcd : Prop :=
  ∀ (w : OpWidth) (m : Mach w.bits) (rest : List Turn), m.resetIn = false → m.blk.eng.fsm = .check →
    decode m.blk.eng.cmd = some .gcd → m.blk.eng.cnt = 0 →
    m.sched =
      List.replicate (euclidIters m.blk.eng.la.toNat m.blk.eng.lb.toNat + 2) .engine ++ rest →
    ∃ b : Block w.bits,
      steps (b.regs.iter.toNat + 2) ⟨w, m⟩ = .next ⟨w, { m.setBlk b with sched := rest }⟩ ∧
      b.eng.fsm = .idle ∧
      b.regs = { m.blk.regs with
        result := b.regs.result, aux := 0, iter := b.regs.iter, err := .none, done := true } ∧
      b.regs.result.toNat = Nat.gcd m.blk.eng.la.toNat m.blk.eng.lb.toNat ∧
      b.regs.iter.toNat = euclidIters m.blk.eng.la.toNat m.blk.eng.lb.toNat

/-- Rules R105, R132, R133, R135, R136, R209: from the check step of an `INV` command a run of `ITER + 2`
engine steps completes it, with `AUX = gcd(e, m)`, an error exactly when `gcd(e, m) ≠ 1` or `m < 2`, and
otherwise the inverse of `e` in `[0, m)`. Error or not, `RESULT` is in `[0, max(m, 1)]` and
`e·RESULT ≡ gcd(e, m) (mod m)`. The engine steps are given as the turns that come next (log entry 5). -/
def Obligations.InvCommandDeliversTheInverse : Prop :=
  ∀ (w : OpWidth) (m : Mach w.bits) (rest : List Turn), m.resetIn = false → m.blk.eng.fsm = .check →
    decode m.blk.eng.cmd = some .inv → m.blk.eng.cnt = 0 →
    m.sched =
      List.replicate (euclidIters m.blk.eng.lb.toNat m.blk.eng.la.toNat + 2) .engine ++ rest →
    ∃ b : Block w.bits,
      steps (b.regs.iter.toNat + 2) ⟨w, m⟩ = .next ⟨w, { m.setBlk b with sched := rest }⟩ ∧
      b.eng.fsm = .idle ∧
      b.regs = { m.blk.regs with
        result := b.regs.result, aux := b.regs.aux, iter := b.regs.iter, err := b.regs.err,
        done := true } ∧
      b.regs.iter.toNat = euclidIters m.blk.eng.lb.toNat m.blk.eng.la.toNat ∧
      b.regs.aux.toNat = Nat.gcd m.blk.eng.la.toNat m.blk.eng.lb.toNat ∧
      b.regs.result.toNat ≤ max m.blk.eng.lb.toNat 1 ∧
      (m.blk.eng.lb.toNat : Int) ∣ m.blk.eng.la.toNat * b.regs.result.toNat -
        Nat.gcd m.blk.eng.la.toNat m.blk.eng.lb.toNat ∧
      (Nat.gcd m.blk.eng.la.toNat m.blk.eng.lb.toNat = 1 → 2 ≤ m.blk.eng.lb.toNat →
        b.regs.err = .none ∧ b.regs.result.toNat < m.blk.eng.lb.toNat ∧
        m.blk.eng.la.toNat * b.regs.result.toNat % m.blk.eng.lb.toNat = 1) ∧
      (Nat.gcd m.blk.eng.la.toNat m.blk.eng.lb.toNat ≠ 1 ∨ m.blk.eng.lb.toNat < 2 →
        b.regs.err = .invalidInverse)

/-- Rules R105, R143, R144, R209: from the check step of a `MODEXP` command that passes its checks a run of
`bitlen(k) + 2` engine steps completes it with `RESULT = x^k mod n`, exactly, `AUX = 0`, `ERR = NONE` and
`ITER = bitlen(k)`. The engine steps are given as the turns that come next (log entry 5). -/
def Obligations.ModexpCommandDeliversThePower : Prop :=
  ∀ (w : OpWidth) (m : Mach w.bits) (rest : List Turn), m.resetIn = false → m.blk.eng.fsm = .check →
    decode m.blk.eng.cmd = some .modexp → m.blk.eng.cnt = 0 → m.blk.eng.lc ≠ 0 →
    (m.blk.eng.rc = false ∨ m.blk.eng.la.toNat < m.blk.eng.lc.toNat) →
    m.sched = List.replicate (bitlen m.blk.eng.lb.toNat + 2) .engine ++ rest →
    ∃ b : Block w.bits,
      steps (bitlen m.blk.eng.lb.toNat + 2) ⟨w, m⟩ = .next ⟨w, { m.setBlk b with sched := rest }⟩ ∧
      b.eng.fsm = .idle ∧
      b.regs = { m.blk.regs with
        result := b.regs.result, aux := 0, iter := b.regs.iter, err := .none, done := true } ∧
      b.regs.result.toNat =
        m.blk.eng.la.toNat ^ m.blk.eng.lb.toNat % m.blk.eng.lc.toNat ∧
      b.regs.iter.toNat = bitlen m.blk.eng.lb.toNat

/-- Rule R149: for a key pair of two distinct primes, with `d` an inverse of `e` modulo `φ(n)`, encrypting
a message and decrypting what that gave returns the message reduced modulo `n`, so the message itself
when `m < n`. The message is below `n` or the encryption has `RANGE_CHK = 0`; the decryption may have
either. Each command runs from its check step with its engine steps as the turns that come next (log
entry 5). -/
def Obligations.EncryptThenDecryptReturnsTheMessage : Prop :=
  ∀ (p q : Nat) (w : OpWidth) (m m' : Mach w.bits) (rest rest' : List Turn),
    p.Prime → q.Prime → p ≠ q →
    m.resetIn = false → m.blk.eng.fsm = .check → m.blk.eng.cnt = 0 →
    decode m.blk.eng.cmd = some .modexp →
    (m.blk.eng.rc = false ∨ m.blk.eng.la.toNat < m.blk.eng.lc.toNat) →
    m'.resetIn = false → m'.blk.eng.fsm = .check → m'.blk.eng.cnt = 0 →
    decode m'.blk.eng.cmd = some .modexp →
    m.blk.eng.lc.toNat = p * q → m'.blk.eng.lc.toNat = p * q →
    m.blk.eng.lb.toNat * m'.blk.eng.lb.toNat % deriveTotient p q = 1 →
    m.sched = List.replicate (bitlen m.blk.eng.lb.toNat + 2) .engine ++ rest →
    m'.sched = List.replicate (bitlen m'.blk.eng.lb.toNat + 2) .engine ++ rest' →
    ∃ b : Block w.bits,
      steps (bitlen m.blk.eng.lb.toNat + 2) ⟨w, m⟩ = .next ⟨w, { m.setBlk b with sched := rest }⟩ ∧
      b.eng.fsm = .idle ∧ b.regs.done = true ∧ b.regs.err = .none ∧
      (m'.blk.eng.la = b.regs.result →
        ∃ b' : Block w.bits,
          steps (bitlen m'.blk.eng.lb.toNat + 2) ⟨w, m'⟩ =
            .next ⟨w, { m'.setBlk b' with sched := rest' }⟩ ∧
          b'.eng.fsm = .idle ∧ b'.regs.done = true ∧
          b'.regs.err = .none ∧ b'.regs.result.toNat = m.blk.eng.la.toNat % (p * q))

/-- Rules R107, R108, R109, R192: under every interleaving and every host program, a running command ends:
the machine comes to a first state whose engine is idle, and there the command has completed, or a reset
has come first; before it the engine is busy. In a state of the invariant the completion delivers what the
command and the operands latched at acceptance give, whatever the host wrote meanwhile. Only a host program
that faults on the way keeps the machine from it (log entry 11). Fairness is that of log entry 5. -/
def Obligations.EveryRunningCommandCompletes : Prop :=
  ∀ (w : OpWidth) (m : Mach w.bits), m.resetIn = false → m.blk.eng.fsm ≠ .idle →
    ∃ k : Nat, 0 < k ∧
      ((∃ f, steps k ⟨w, m⟩ = .fault f) ∨
        ∃ t : Mach w.bits, steps k ⟨w, m⟩ = .next ⟨w, t⟩ ∧ t.blk.eng.fsm = .idle ∧
          ((t.blk.regs.done = true ∧ (m.Inv → Delivered t.blk.regs m.blk.eng)) ∨
            t.blk = Block.reset w.bits)) ∧
      ∀ j, j < k → ∃ u : Mach w.bits, steps j ⟨w, m⟩ = .next ⟨w, u⟩ ∧ u.blk.eng.fsm ≠ .idle

/-! ## Invariants -/

/-- The invariant holds right after reset, at every width. -/
def Obligations.InvariantHoldsAtReset : Prop := ∀ w : OpWidth, (State.resetAt w).mach.Inv

/-- Every step keeps the invariant, under every interleaving and every host program: while `DONE = 1`
the completion registers are those of the latched command (rules R69, R109, R123, R135, R144, R147),
while `BUSY = 1` `DONE` and `ERR` are 0 (rules R30, R32), and the loops keep the invariants of rules R134
and R144, `ITER` the bound of rule R38. That the block is in its reset state while the reset input is
asserted is the model's choice (log entry 8: rule R190 gives the values at its release). -/
def Obligations.StepKeepsInvariant : Prop :=
  ∀ (s t : State), s.mach.Inv → step s = .next t → t.mach.Inv

/-- Rule R134: the bounds on the coefficients of the inverse unit, in every state the invariant admits,
with those of the intermediate product `q·x1`. -/
def Obligations.BezoutCoefficientsStayInRange : Prop :=
  ∀ (w : OpWidth) (m : Mach w.bits), m.Inv → m.blk.eng.fsm = .invLoop →
    m.blk.eng.x0.natAbs ≤ max m.blk.eng.lb.toNat 1 ∧ m.blk.eng.x1.natAbs ≤ max m.blk.eng.lb.toNat 1 ∧
    (m.blk.eng.b ≠ 0 →
      (((m.blk.eng.a.toNat / m.blk.eng.b.toNat : Nat) : Int) * m.blk.eng.x1).natAbs
        ≤ max m.blk.eng.lb.toNat 1)

/-- Rule R38: the iteration counter never wraps: in every state the invariant admits it is at most
`2·OPW + 1`, and a step that iterates adds exactly 1 to it. -/
def Obligations.IterationCounterNeverWraps : Prop :=
  ∀ (w : OpWidth) (m : Mach w.bits) (i : Instr) (b : Block w.bits), m.Inv → m.blk.eng.fsm ≠ .idle →
    m.blk.eng.cnt.toNat ≤ 2 * w.bits + 1 ∧
    (m.blk.eng.fsm ≠ .check → exec i ⟨w, m⟩ = .next ⟨w, m.setBlk b⟩ → b.eng.fsm ≠ .idle →
      b.eng.cnt.toNat = m.blk.eng.cnt.toNat + 1)

/-! ## Registers and flags -/

/-- Rule R23: `ID` always reads its constant, and a write to it is ignored. -/
def Obligations.IdReadsItsConstant : Prop :=
  ∀ (w : OpWidth) (b : Block w.bits) (v : Word w.bits),
    (portRead b 0x0#4).toNat = 0x47434445 ∧ portWrite b 0x0#4 v = b

/-- Rule R21: reserved indices read 0; writes to them and to the read-only registers change nothing. -/
def Obligations.ReservedAndReadOnlyIndices : Prop :=
  ∀ (w : OpWidth) (b : Block w.bits) (idx : BitVec 4) (v : Word w.bits),
    (0xB ≤ idx.toNat → portRead b idx = 0 ∧ portWrite b idx v = b) ∧
    (idx = 0x0#4 ∨ idx = 0x1#4 ∨ idx = 0x8#4 ∨ idx = 0x9#4 ∨ idx = 0xA#4 → portWrite b idx v = b)

/-- Rule R22: the reserved bits of `PARAM`, `CTRL` and `STATUS` read 0 in every block, and a write
ignores them: two writes that differ in reserved bits only leave the same block. -/
def Obligations.ReservedBitsReadZeroAndAreIgnored : Prop :=
  ∀ (w : OpWidth) (b : Block w.bits) (u v : Word w.bits),
    (∀ k, 32 ≤ k → (portRead b 0x1#4).getLsbD k = false) ∧
    (∀ k, 3 ≤ k → (portRead b 0x2#4).getLsbD k = false) ∧
    (∀ k, k = 3 ∨ 8 ≤ k → (portRead b 0x3#4).getLsbD k = false) ∧
    ((∀ k, 32 ≤ k ∨ u.getLsbD k = v.getLsbD k) → portWrite b 0x1#4 u = portWrite b 0x1#4 v) ∧
    ((∀ k, 3 ≤ k ∨ u.getLsbD k = v.getLsbD k) → portWrite b 0x2#4 u = portWrite b 0x2#4 v) ∧
    ((∀ k, k = 3 ∨ 8 ≤ k ∨ u.getLsbD k = v.getLsbD k) → portWrite b 0x3#4 u = portWrite b 0x3#4 v)

/-- Rule R25, rule R24 for the widths its 16-bit field can hold, rule R20's formula below `OPW = 131072` and
rule R193's sum below 65536. `PARAM` is one word in all blocks of a width and ignores writes. That `REV` keeps
its constant (ruling D6) and the field the low 16 bits of `OPW` at the widths beyond is log entry 2. -/
def Obligations.ParamReadsRevisionAndWidth : Prop :=
  ∀ (w : OpWidth) (b b' : Block w.bits) (v : Word w.bits),
    (portRead b 0x1#4).toNat / 2 ^ 16 = 0x0001 ∧
    (portRead b 0x1#4).toNat % 2 ^ 16 = w.bits % 2 ^ 16 ∧
    (w.bits < 2 ^ 17 → (portRead b 0x1#4).toNat = (0x0001 <<< 16) ||| w.bits) ∧
    (w.bits < 2 ^ 16 → (portRead b 0x1#4).toNat = 0x00010000 + w.bits) ∧
    portRead b' 0x1#4 = portRead b 0x1#4 ∧
    portWrite b 0x1#4 v = b

/-- Rule R28: a `CTRL` write with bit 2 set is a soft reset that discards the other bits; with bit 2
clear it sets the two fields and changes nothing else; a read returns them with bit 2 clear. -/
def Obligations.CtrlWriteSetsFieldsOrResets : Prop :=
  ∀ (w : OpWidth) (b : Block w.bits) (v : Word w.bits),
    (v.getLsbD 2 = true → portWrite b 0x2#4 v = Block.reset w.bits) ∧
    (v.getLsbD 2 = false → portWrite b 0x2#4 v =
      { b with regs := { b.regs with irqEn := v.getLsbD 0, rangeChk := v.getLsbD 1 } }) ∧
    (portRead b 0x2#4).toNat = b.regs.rangeChk.toNat * 2 + b.regs.irqEn.toNat

/-- Rule R33: exactly what a `STATUS` write clears, and what a `STATUS` read returns. Rule R160: the codes
`STATUS.ERR` takes, one for each of the five errors, and never a reserved one. -/
def Obligations.StatusWriteClearsAndReadPacks : Prop :=
  ErrCode.none.code = 0x0#4 ∧ ErrCode.illegalCommand.code = 0x1#4 ∧
  ErrCode.invalidInverse.code = 0x2#4 ∧ ErrCode.modulusZero.code = 0x3#4 ∧
  ErrCode.messageOutOfRange.code = 0x4#4 ∧
  ∀ (w : OpWidth) (b : Block w.bits) (v : Word w.bits),
    portWrite b 0x3#4 v = { b with regs := { b.regs with
      done := if v.getLsbD 1 then false else b.regs.done,
      ovr := if v.getLsbD 2 then false else b.regs.ovr } } ∧
    (portRead b 0x3#4).toNat = b.regs.err.code.toNat * 16 + b.regs.ovr.toNat * 4 +
      b.regs.done.toNat * 2 + (if b.eng.fsm = .idle then 0 else 1) ∧
    (portRead b 0x3#4).toNat / 16 ≤ 0x4

/-- Rules R34, R35: `CMD` reads 0; an operand register keeps the full value written, a read returns it,
and the engine and every other register are as before. -/
def Obligations.OperandRegistersStoreFullWords : Prop :=
  ∀ (w : OpWidth) (b : Block w.bits) (v : Word w.bits),
    portRead b 0x4#4 = 0 ∧
    portWrite b 0x5#4 v = { b with regs := { b.regs with opa := v } } ∧
    portWrite b 0x6#4 v = { b with regs := { b.regs with opb := v } } ∧
    portWrite b 0x7#4 v = { b with regs := { b.regs with opc := v } } ∧
    portRead b 0x5#4 = b.regs.opa ∧ portRead b 0x6#4 = b.regs.opb ∧ portRead b 0x7#4 = b.regs.opc ∧
    portRead b 0x8#4 = b.regs.result ∧ portRead b 0x9#4 = b.regs.aux ∧ portRead b 0xA#4 = b.regs.iter

/-- Rules R170, R171: `irq = CTRL.IRQ_EN AND STATUS.DONE` as the two registers read; a write of
`IRQ_EN` moves it at once and keeps `DONE`. -/
def Obligations.InterruptFollowsEnableAndDone : Prop :=
  ∀ (w : OpWidth) (b : Block w.bits) (v : Word w.bits),
    (b.irq = true ↔ (portRead b 0x2#4).getLsbD 0 = true ∧ (portRead b 0x3#4).getLsbD 1 = true) ∧
    (v.getLsbD 2 = false →
      (portWrite b 0x2#4 v).irq = (v.getLsbD 0 && b.regs.done) ∧
      (portWrite b 0x2#4 v).regs.done = b.regs.done)

/-- Rule R169: the return from a completion. `PortWrite(0x3, 0x2)` clears `DONE`, drops `irq` and
restores or changes nothing else; accepting the next command clears `DONE` and drops `irq` too. -/
def Obligations.AcknowledgeClearsDoneOnly : Prop :=
  ∀ (w : OpWidth) (b : Block w.bits) (v : Word w.bits),
    portWrite b 0x3#4 0x2 = b.acknowledge ∧
    portWrite b 0x3#4 0x2 = { b with regs := { b.regs with done := false } } ∧
    (portWrite b 0x3#4 0x2).irq = false ∧
    (b.eng.fsm = .idle → (portWrite b 0x4#4 v).regs.done = false ∧ (portWrite b 0x4#4 v).irq = false)

/-! ## Reset -/

/-- Rule R190: the state right after a reset: `eng.fsm = IDLE`, `CTRL`, `STATUS` and `OPA` to `ITER` read
0, `irq = 0`. Rule R191: a soft reset gives exactly that block, whatever the other bits were. -/
def Obligations.ResetStateAndSoftReset : Prop :=
  ∀ (w : OpWidth) (b : Block w.bits) (v : Word w.bits) (idx : BitVec 4),
    (Block.reset w.bits).eng.fsm = .idle ∧ (Block.reset w.bits).irq = false ∧
    (2 ≤ idx.toNat → portRead (Block.reset w.bits) idx = 0) ∧
    (v.getLsbD 2 = true → portWrite b 0x2#4 v = Block.reset w.bits)

/-- Rules R190, R192: asserting and releasing the reset input, and no engine step while it is asserted. A
command that was running produces no completion. The host is not touched.
The model's choices are the two edges as turns, the reset block at the assertion and a release that comes while
the input is not asserted (log entry 8), that an engine turn and a due turn pass while the input is asserted,
used up and changing nothing else (log entry 6), and that a due turn is nobody's then (log entry 5). -/
def Obligations.HardResetAbortsAndResets : Prop :=
  ∀ (w : OpWidth) (m : Mach w.bits),
    (m.mover = .assertReset →
      step ⟨w, m⟩ = .next ⟨w, { m.turnUsed with blk := Block.reset w.bits, resetIn := true }⟩) ∧
    (m.mover = .releaseReset →
      step ⟨w, m⟩ = .next ⟨w, { m.turnUsed with blk := Block.reset w.bits, resetIn := false }⟩) ∧
    (m.mover = .engine → m.resetIn = true → step ⟨w, m⟩ = .next ⟨w, m.turnUsed⟩) ∧
    (m.upcoming.1 = .due → m.resetIn = true → step ⟨w, m⟩ = .next ⟨w, m.turnUsed⟩)

/-- Rule R195: a port operation while the reset input is asserted is refused. -/
def Obligations.PortOperationDuringHardResetIsRefused : Prop :=
  ∀ (w : OpWidth) (m : Mach w.bits) (st : Stmt), m.hostIsNext → m.resetIn = true → m.host.script[m.host.pos]? = some st →
    (∀ l, st ≠ .label l) → (∀ c l, st ≠ .ifGoto c l) → (∀ k v, st ≠ .draw k v) → step ⟨w, m⟩ = .refused .portDuringHardReset

/-! ## The host agent -/

/-- Rule R88, the port statements: `wr` performs one `PortWrite`, `rd` one `PortRead` whose result is
bound to the name, and one read of a `poll` goes on exactly when the field has the value. With them what the
statements name: `idx(REG)` of each register (rules R20, R88), the bits of each field of `PARAM`, `CTRL` and
`STATUS` (rules R24, R25, R27 to R32), and what those fields are in a read of the three registers (for
`PARAM.OPW` at `OPW ≥ 65536`, log entry 2). One statement a turn is log entry 7. -/
def Obligations.HostPortStatements : Prop :=
  (Reg.id.idx = 0x0#4 ∧ Reg.param.idx = 0x1#4 ∧ Reg.ctrl.idx = 0x2#4 ∧ Reg.status.idx = 0x3#4 ∧
    Reg.cmd.idx = 0x4#4 ∧ Reg.opa.idx = 0x5#4 ∧ Reg.opb.idx = 0x6#4 ∧ Reg.opc.idx = 0x7#4 ∧
    Reg.result.idx = 0x8#4 ∧ Reg.aux.idx = 0x9#4 ∧ Reg.iter.idx = 0xA#4 ∧
    ∀ k : Fin 5, (Reg.reserved k).idx.toNat = 0xB + k) ∧
  (∀ x : Nat,
    (Field.paramOpw.reg = .param ∧ Field.paramOpw.get x = x % 2 ^ 16) ∧
    (Field.paramRev.reg = .param ∧ Field.paramRev.get x = x / 2 ^ 16 % 2 ^ 16) ∧
    (Field.ctrlIrqEn.reg = .ctrl ∧ Field.ctrlIrqEn.get x = x % 2) ∧
    (Field.ctrlRangeChk.reg = .ctrl ∧ Field.ctrlRangeChk.get x = x / 2 % 2) ∧
    (Field.ctrlSrst.reg = .ctrl ∧ Field.ctrlSrst.get x = x / 4 % 2) ∧
    (Field.statusBusy.reg = .status ∧ Field.statusBusy.get x = x % 2) ∧
    (Field.statusDone.reg = .status ∧ Field.statusDone.get x = x / 2 % 2) ∧
    (Field.statusOvr.reg = .status ∧ Field.statusOvr.get x = x / 4 % 2) ∧
    (Field.statusErr.reg = .status ∧ Field.statusErr.get x = x / 16 % 16)) ∧
  (∀ (w : OpWidth) (b : Block w.bits),
    Field.paramOpw.get (portRead b 0x1#4).toNat = w.bits % 2 ^ 16 ∧
    Field.paramRev.get (portRead b 0x1#4).toNat = 0x0001 ∧
    Field.ctrlIrqEn.get (portRead b 0x2#4).toNat = b.regs.irqEn.toNat ∧
    Field.ctrlRangeChk.get (portRead b 0x2#4).toNat = b.regs.rangeChk.toNat ∧
    Field.ctrlSrst.get (portRead b 0x2#4).toNat = 0 ∧
    Field.statusBusy.get (portRead b 0x3#4).toNat = (if b.eng.fsm = .idle then 0 else 1) ∧
    Field.statusDone.get (portRead b 0x3#4).toNat = b.regs.done.toNat ∧
    Field.statusOvr.get (portRead b 0x3#4).toNat = b.regs.ovr.toNat ∧
    Field.statusErr.get (portRead b 0x3#4).toNat = b.regs.err.code.toNat) ∧
  ∀ (w : OpWidth) (m : Mach w.bits), m.hostIsNext → m.resetIn = false →
    (∀ r v x, m.host.script[m.host.pos]? = some (.wr r v) → v.eval m.host.names = some x →
      x < 2 ^ w.bits →
      step ⟨w, m⟩ = .next ⟨w, { m.turnUsed.setBlk (portWrite m.blk r.idx (BitVec.ofNat _ x)) with
        host := { m.host with pos := m.host.pos + 1 } }⟩) ∧
    (∀ r k, m.host.script[m.host.pos]? = some (.rd r k) →
      step ⟨w, m⟩ = .next ⟨w, { m.turnUsed with host := { m.host with
        pos := m.host.pos + 1, names := bindName k (portRead m.blk r.idx).toNat m.host.names } }⟩) ∧
    (∀ f v x, m.host.script[m.host.pos]? = some (.poll f v) → v.eval m.host.names = some x →
      step ⟨w, m⟩ = .next ⟨w, if f.get (portRead m.blk f.reg.idx).toNat = x
        then { m.turnUsed with host := { m.host with pos := m.host.pos + 1 } } else m.turnUsed⟩)

/-- Rule R88, the control statements: a label performs nothing, and an `if` goes to its label exactly
when its condition holds; no port operation, the block as it was. And the host's random draw (rule R92,
log entry 21): it binds a number of the open range `(2, phi)`, which one is free.
The model's choices are that a label and an `if` take a turn each and a jump goes to the label's own
position (log entry 7), that the first definition of a label counts (`findLabel`, log entry 12), and that a
condition compares by `=` or `≠` with a number (log entry 16). -/
def Obligations.HostControlStatements : Prop :=
  ∀ (w : OpWidth) (m : Mach w.bits), m.hostIsNext →
    (∀ l, m.host.script[m.host.pos]? = some (.label l) →
      step ⟨w, m⟩ = .next ⟨w, { m.turnUsed with host := { m.host with pos := m.host.pos + 1 } }⟩) ∧
    (∀ c l p, m.host.script[m.host.pos]? = some (.ifGoto c l) → findLabel l m.host.script = some p →
      m.host.script[p]? = some (.label l) ∧
      (∀ v, lookupName c.name m.host.names = some v →
        step ⟨w, m⟩ = .next ⟨w, { m.turnUsed with host := { m.host with
          pos := if (((c.field.map (·.get v)).getD v = c.rhs) ↔ c.eq = true) then p
            else m.host.pos + 1 } }⟩)) ∧
    (∀ c l v, m.host.script[m.host.pos]? = some (.ifGoto c l) → lookupName c.name m.host.names = some v →
      ¬ ((c.field.map (·.get v)).getD v = c.rhs ↔ c.eq = true) →
      step ⟨w, m⟩ = .next ⟨w, { m.turnUsed with host := { m.host with pos := m.host.pos + 1 } }⟩) ∧
    (∀ k v phi, m.host.script[m.host.pos]? = some (.draw k v) → v.eval m.host.names = some phi →
      phi < 2 ^ w.bits →
      ∃ x, step ⟨w, m⟩ = .next ⟨w, { m.turnUsed with host := { m.host with
          pos := m.host.pos + 1, names := bindName k x m.host.names, drawn := m.host.drawn + 1 } }⟩ ∧
        x < 2 ^ w.bits ∧ (3 < phi → 2 < x ∧ x < phi))

/-- Where a host program stops (rules R88, R207; log entry 11): at a name nothing has bound, at a label the
script does not define, and at a `wr` of a number that the register cannot hold, which is never truncated,
or a draw below such a number. -/
def Obligations.HostStatementsThatCannotBeCarriedOut : Prop :=
  ∀ (w : OpWidth) (m : Mach w.bits), m.hostIsNext → m.resetIn = false →
    (∀ r v, m.host.script[m.host.pos]? = some (.wr r v) → v.eval m.host.names = none →
      step ⟨w, m⟩ = .fault .unboundName) ∧
    (∀ f v, m.host.script[m.host.pos]? = some (.poll f v) → v.eval m.host.names = none →
      step ⟨w, m⟩ = .fault .unboundName) ∧
    (∀ c l, m.host.script[m.host.pos]? = some (.ifGoto c l) → lookupName c.name m.host.names = none →
      step ⟨w, m⟩ = .fault .unboundName) ∧
    (∀ r v x, m.host.script[m.host.pos]? = some (.wr r v) → v.eval m.host.names = some x →
      2 ^ w.bits ≤ x → step ⟨w, m⟩ = .fault .valueTooWide) ∧
    (∀ c l, m.host.script[m.host.pos]? = some (.ifGoto c l) → c.holds m.host.names = some true →
      findLabel l m.host.script = none → step ⟨w, m⟩ = .fault .unknownLabel) ∧
    (∀ k v, m.host.script[m.host.pos]? = some (.draw k v) → v.eval m.host.names = none →
      step ⟨w, m⟩ = .fault .unboundName) ∧
    (∀ k v x, m.host.script[m.host.pos]? = some (.draw k v) → v.eval m.host.names = some x →
      2 ^ w.bits ≤ x → step ⟨w, m⟩ = .fault .valueTooWide)

/-- Rules R60, R65, R88: the host's turn performs exactly the transaction it announces: a write changes
the block as `PortWrite` does, a read returns what `PortRead` does and changes nothing, and a turn that
announces none changes no block. -/
def Obligations.HostTurnPerformsItsTransaction : Prop :=
  ∀ (w : OpWidth) (m m' : Mach w.bits), m.hostIsNext → step ⟨w, m⟩ = .next ⟨w, m'⟩ →
    (∀ idx d, m.hostTxn = some (.w idx d) →
      ∃ h, m' = { m.turnUsed.setBlk (portWrite m.blk idx (BitVec.ofNat _ d)) with host := h }) ∧
    (∀ idx d, m.hostTxn = some (.r idx d) →
      d = (portRead m.blk idx).toNat ∧ ∃ h, m' = { m.turnUsed with host := h }) ∧
    (m.hostTxn = none → ∃ h, m' = { m.turnUsed with host := h })

/-- Rule R88: a name that is read afterwards gives the value bound last, and binding one name leaves
every other name's value. -/
def Obligations.BoundNamesGiveTheValueReadLast : Prop :=
  ∀ (k j v : Nat) (names : List (Nat × Nat)), (names.map Prod.fst).Pairwise (· < ·) →
    lookupName k (bindName k v names) = some v ∧
    (j ≠ k → lookupName j (bindName k v names) = lookupName j names) ∧
    ((bindName k v names).map Prod.fst).Pairwise (· < ·)

/-- Rule R89: a `poll` on a state that never comes is a host hang: with no command in flight and
`DONE = 0`, `poll STATUS.DONE, 1` reads forever, whatever the interleaving: after any number of steps the
host is where it was, no command runs and `DONE = 0`. The one way to stop is to read while the reset input
is asserted (rule R195), so while no edge of it comes among the turns known the run does go on. -/
def Obligations.PollThatNeverComesHangs : Prop :=
  ∀ (w : OpWidth) (m : Mach w.bits) (k : Nat), m.blk.eng.fsm = .idle → m.blk.regs.done = false →
    m.host.script[m.host.pos]? = some (.poll .statusDone (.num 1)) →
    (steps k ⟨w, m⟩ = .refused .portDuringHardReset ∨
      ∃ t : Mach w.bits, steps k ⟨w, m⟩ = .next ⟨w, t⟩ ∧ t.host = m.host ∧
        t.blk.eng.fsm = .idle ∧ t.blk.regs.done = false) ∧
    (m.resetIn = false → k ≤ m.sched.length → .assertReset ∉ m.sched → .releaseReset ∉ m.sched →
      steps k ⟨w, m⟩ = .next ⟨w, { m with sched := m.sched.drop k }⟩)

/-- Rule R90: `run OP, A, B, C` from an idle block whose host is at it: after its port writes, given as the
turns that come next, the host's by name or because they are due (log entry 5), the command word and operands
are latched and the engine is at its check step. With `C` there are four writes; where `C` is omitted, the form
of a command that ignores `OPC`, three, and `OPC` is latched as it stood. Stated for numbers. -/
def Obligations.RunPseudoCommandStartsItsCommand : Prop :=
  ∀ (w : OpWidth) (m : Mach w.bits) (op a b : Nat) (c : Option Nat) (rest : List Stmt) (u : Turn)
    (later : List Turn),
    let k := if c.isSome then 4 else 3
    m.resetIn = false → (u = .host ∨ u = .due) → m.sched = List.replicate k u ++ later →
    m.blk.eng.fsm = .idle → op < 2 ^ w.bits → a < 2 ^ w.bits → b < 2 ^ w.bits →
    (∀ x, c = some x → x < 2 ^ w.bits) → m.host.pos = 0 →
    m.host.script = run (.num op) (.num a) (.num b) (c.map .num) ++ rest →
    ∃ t : Block w.bits,
      steps k ⟨w, m⟩ = .next ⟨w, { m.setBlk t with sched := later, host := { m.host with pos := k } }⟩ ∧
      t.eng.fsm = .check ∧ t.eng.cmd.toNat = op ∧ t.eng.la.toNat = a ∧ t.eng.lb.toNat = b ∧
      t.eng.lc.toNat = c.getD m.blk.regs.opc.toNat ∧ t.regs.opc = t.eng.lc ∧
      t.eng.rc = m.blk.regs.rangeChk ∧ t.regs.done = false ∧
      m.host.script[k]? = some (.poll .statusDone (.num 1))

/-! ## The whole machine -/

/-- Rules R7, R24: the operand width is fixed: no step changes it, so `PARAM` is a constant. -/
def Obligations.StepKeepsTheWidth : Prop :=
  ∀ (s t : State), step s = .next t → t.width = s.width

/-- Rules R36, R37, R38: `RESULT`, `AUX` and `ITER` change only in a completion and in a reset. -/
def Obligations.ResultsChangeOnlyAtCompletionOrReset : Prop :=
  ∀ (w : OpWidth) (m m' : Mach w.bits), step ⟨w, m⟩ = .next ⟨w, m'⟩ →
    (m'.blk.regs.result = m.blk.regs.result ∧ m'.blk.regs.aux = m.blk.regs.aux ∧
      m'.blk.regs.iter = m.blk.regs.iter) ∨
    (m.blk.eng.fsm ≠ .idle ∧ m'.blk.eng.fsm = .idle ∧ m'.blk.regs.done = true) ∨
    m'.blk = Block.reset w.bits

/-- Rule R186: nothing wakes an idle engine except an accepted `CMD` write. -/
def Obligations.OnlyAcceptedCmdWriteWakesTheEngine : Prop :=
  ∀ (w : OpWidth) (m m' : Mach w.bits), step ⟨w, m⟩ = .next ⟨w, m'⟩ →
    m.blk.eng.fsm = .idle → m'.blk.eng.fsm ≠ .idle →
    m.hostIsNext ∧ m.resetIn = false ∧
    ∃ v x, m.host.script[m.host.pos]? = some (.wr .cmd v) ∧ v.eval m.host.names = some x ∧
      m'.blk.eng.fsm = .check ∧ m'.blk.eng.cmd.toNat = x

/-- Rule R31: `OVR` is sticky. It rises only by a dropped `CMD` write, and falls only by a `STATUS` write
with bit 2 set or by a reset. -/
def Obligations.OverrunIsStickyUntilCleared : Prop :=
  ∀ (w : OpWidth) (m m' : Mach w.bits), step ⟨w, m⟩ = .next ⟨w, m'⟩ →
    (m.blk.regs.ovr = false → m'.blk.regs.ovr = true →
      m.blk.eng.fsm ≠ .idle ∧ m.hostIsNext ∧
      ∃ v, m.host.script[m.host.pos]? = some (.wr .cmd v)) ∧
    (m.blk.regs.ovr = true → m'.blk.regs.ovr = false →
      m'.blk.regs = Regs.reset w.bits ∨
      (m.hostIsNext ∧ ∃ v x, m.host.script[m.host.pos]? = some (.wr .status v) ∧
        v.eval m.host.names = some x ∧ x.testBit 2 = true))

/-- Rule R30: `DONE` is sticky. It rises only in a completion, and falls only by an accepted `CMD` write,
a `STATUS` write with bit 1 set or a reset. -/
def Obligations.DoneIsStickyUntilCleared : Prop :=
  ∀ (w : OpWidth) (m m' : Mach w.bits), step ⟨w, m⟩ = .next ⟨w, m'⟩ →
    (m.blk.regs.done = false → m'.blk.regs.done = true →
      m.blk.eng.fsm ≠ .idle ∧ m'.blk.eng.fsm = .idle) ∧
    (m.blk.regs.done = true → m'.blk.regs.done = false →
      m'.blk.regs = Regs.reset w.bits ∨
      (m.hostIsNext ∧ ∃ r v x, m.host.script[m.host.pos]? = some (.wr r v) ∧
        v.eval m.host.names = some x ∧
        ((r = .cmd ∧ m.blk.eng.fsm = .idle) ∨ (r = .status ∧ x.testBit 1 = true))))

/-- Rule R166: when a port operation and an engine step fall together, the port operation first: a `CMD`
write just before a completing step is dropped with `OVR`, and a W1C of `DONE` just before it leaves
`DONE = 1`. Both turns are given by `sched`. -/
def Obligations.PortOperationBeforeCompletingStep : Prop :=
  ∀ (w : OpWidth) (m u : Mach w.bits) (rest : List Turn) (x : Nat), m.resetIn = false →
    m.blk.eng.fsm ≠ .idle → m.sched = .host :: .engine :: rest → x < 2 ^ w.bits →
    engineTurn ⟨w, m⟩ = .next ⟨w, u⟩ → u.blk.eng.fsm = .idle →
    (m.host.script[m.host.pos]? = some (.wr .cmd (.num x)) →
      ∃ t : Mach w.bits, steps 2 ⟨w, m⟩ = .next ⟨w, t⟩ ∧
        t.blk.eng = u.blk.eng ∧ t.blk.regs = { u.blk.regs with ovr := true }) ∧
    (m.host.script[m.host.pos]? = some (.wr .status (.num x)) →
      ∃ t : Mach w.bits, steps 2 ⟨w, m⟩ = .next ⟨w, t⟩ ∧
        t.blk.eng = u.blk.eng ∧ t.blk.regs.done = true)

/-- The only thing the model refuses to step is a port operation during a hard reset (rule R195): no
command and no other move is refused. -/
def Obligations.OnlyPortOperationsDuringResetAreRefused : Prop :=
  ∀ (w : OpWidth) (m : Mach w.bits) (r : Refusal), step ⟨w, m⟩ = .refused r →
    r = .portDuringHardReset ∧ m.resetIn = true ∧ m.hostIsNext

/-- A well-formed host script stops only at a name it uses before it has read it (rules R88, R207). -/
def Obligations.WellFormedScriptsFaultOnlyOnUnreadNames : Prop :=
  ∀ (w : OpWidth) (m : Mach w.bits) (f : Fault), m.Inv → scriptWf w m.host.script = true →
    step ⟨w, m⟩ = .fault f → f = .unboundName

/-- Rule R210: a host program that has ended stays ended under every interleaving: the machine goes on in
its end state, which only an edge of the reset input, that has it in the reset state, can change. That the
turns of an ended host and of an idle engine pass is log entry 6, the interleaving log entry 5. -/
def Obligations.EndedProgramsRest : Prop :=
  ∀ (w : OpWidth) (m : Mach w.bits), m.ended = true →
    (∀ k, ∃ t : Mach w.bits, steps k ⟨w, m⟩ = .next ⟨w, t⟩ ∧ t.ended = true ∧ t.host = m.host ∧
      (t.blk = m.blk ∨ t.blk = Block.reset w.bits)) ∧
    (m.mover = .host ∨ m.mover = .engine → step ⟨w, m⟩ = .next ⟨w, m.turnUsed⟩)
end

