-- ==== Sys2Proof/Laws/Decode.lean ====
section
/-! SUPPORT. The fields of a command word and the opcode map. -/

namespace Sys2Proof

/-- `OP` is the word modulo 16, `MBZ` the word divided by 16 (rule R80). -/
theorem opField_toNat {n : Nat} (v : Word n) : (opField v).toNat = v.toNat % 16 := by
  simp [opField]

theorem mbzField_eq {n : Nat} (v : Word n) : mbzField v = v.toNat / 16 := by
  simp [mbzField, Nat.shiftRight_eq_div_pow]

@[simp] theorem decodeOp_opcode (i : Instr) : decodeOp i.opcode = some i := by cases i <;> rfl

theorem opcode_of_decodeOp {op : BitVec 4} {i : Instr} (h : decodeOp op = some i) :
    op = i.opcode := by
  revert op
  cases i <;> decide

theorem decodeOp_isSome_iff (op : BitVec 4) :
    (decodeOp op).isSome = true ↔ op.toNat = 1 ∨ op.toNat = 2 ∨ op.toNat = 3 ∨ op.toNat = 4 := by
  revert op; decide

theorem encode_toNat {n : Nat} (h : 4 ≤ n) (i : Instr) : (encode n i).toNat = i.opcode.toNat := by
  have h1 : i.opcode.toNat < 2 ^ 4 := i.opcode.isLt
  have h2 : 2 ^ 4 ≤ 2 ^ n := Nat.pow_le_pow_right (by decide) h
  simp only [encode, BitVec.toNat_setWidth]
  exact Nat.mod_eq_of_lt (by omega)

/-- Every command is well formed: it has no operand field. -/
theorem Instr.wf_true (i : Instr) : i.wf = true := by cases i <;> rfl

end Sys2Proof
end

