-- ==== Sys2Proof/Laws/Euclid.lean ====
section
/-! SUPPORT. The counts of the loops: iterations of the remainder loop, and the bit length. -/

namespace Sys2Proof.Machine

@[simp] theorem bitlen_zero : bitlen 0 = 0 := rfl

/-- Halving a nonzero number takes one bit off it (rule R143). -/
theorem bitlen_half {v : Nat} (h : v ≠ 0) : bitlen v = bitlen (v / 2) + 1 := by
  unfold bitlen
  rw [if_neg h, Nat.log2_def v]
  split <;> split <;> simp_all
  omega

/-- A number below `2^k` has at most `k` bits (rule R143). -/
theorem bitlen_le {v k : Nat} (h : v < 2 ^ k) : bitlen v ≤ k := by
  unfold bitlen
  split
  · omega
  · rename_i h0
    exact (Nat.log2_lt h0).2 h

/-- Fuel beyond the divisor changes nothing: the divisor falls at every iteration (rule R122). -/
theorem euclidItersFuel_eq {fuel a b : Nat} (h : b ≤ fuel) : euclidItersFuel fuel a b = euclidIters a b := by
  have key : ∀ f g a b, b ≤ f → b ≤ g → euclidItersFuel f a b = euclidItersFuel g a b := by
    intro f
    induction f with
    | zero =>
      intro g a b hf _
      obtain rfl : b = 0 := by omega
      cases g <;> simp [euclidItersFuel]
    | succ f ih =>
      intro g a b hf hg
      by_cases hb : b = 0
      · subst hb; cases g <;> simp [euclidItersFuel]
      · obtain ⟨g, rfl⟩ : ∃ k, g = k + 1 := ⟨g - 1, by omega⟩
        have := Nat.mod_lt a (Nat.pos_of_ne_zero hb)
        simp only [euclidItersFuel, if_neg hb]
        rw [ih g b (a % b) (by omega) (by omega)]
  exact key _ _ _ _ h le_rfl

@[simp] theorem euclidIters_zero (a : Nat) : euclidIters a 0 = 0 := rfl

/-- An iteration of the remainder loop (rule R121). -/
theorem euclidIters_of_ne_zero (a : Nat) {b : Nat} (h : b ≠ 0) :
    euclidIters a b = euclidIters b (a % b) + 1 := by
  have hm := Nat.mod_lt a (Nat.pos_of_ne_zero h)
  obtain ⟨f, rfl⟩ : ∃ f, b = f + 1 := ⟨b - 1, by omega⟩
  rw [euclidIters, euclidItersFuel, if_neg h, euclidItersFuel_eq (by omega)]

/-- Two iterations halve the divisor, so there are at most `2·k` of them (rule R38). -/
theorem euclidIters_le (k : Nat) : ∀ {a b : Nat}, b < 2 ^ k → euclidIters a b ≤ 2 * k := by
  induction k with
  | zero => intro a b h; obtain rfl : b = 0 := by omega
            simp
  | succ k ih =>
    intro a b h
    by_cases hb : b = 0
    · simp [hb]
    rw [euclidIters_of_ne_zero a hb]
    have hr := Nat.mod_lt a (Nat.pos_of_ne_zero hb)
    by_cases hr0 : a % b = 0
    · simp only [hr0, euclidIters_zero]; omega
    rw [euclidIters_of_ne_zero b hr0]
    have hs := Nat.mod_lt b (Nat.pos_of_ne_zero hr0)
    have hd := Nat.div_add_mod b (a % b)
    have hq : 1 ≤ b / (a % b) := (Nat.one_le_div_iff (by omega)).2 hr.le
    have hmul : a % b ≤ a % b * (b / (a % b)) := Nat.le_mul_of_pos_right _ hq
    have := ih (a := a % b) (b := b % (a % b)) (by rw [pow_succ] at h; omega)
    omega

end Sys2Proof.Machine
end

