-- ==== Sys2Proof/Laws/State.lean ====
section
/-! SUPPORT. What each update of the machine leaves in each field. -/

namespace Sys2Proof

theorem OpWidth.bits_ge (w : OpWidth) : 32 ≤ w.bits := by unfold OpWidth.bits; omega

theorem OpWidth.bits_pos (w : OpWidth) : 0 < w.bits := by unfold OpWidth.bits; omega

namespace Machine

variable {n : Nat}

@[simp] theorem Mach.setBlk_blk (m : Mach n) (b) : (m.setBlk b).blk = b := rfl
@[simp] theorem Mach.setBlk_resetIn (m : Mach n) (b) : (m.setBlk b).resetIn = m.resetIn := rfl
@[simp] theorem Mach.setBlk_sched (m : Mach n) (b) : (m.setBlk b).sched = m.sched := rfl
@[simp] theorem Mach.setBlk_parts (m : Mach n) (b) : (m.setBlk b).parts = m.parts := rfl
@[simp] theorem Mach.setBlk_host (m : Mach n) (b) : (m.setBlk b).host = m.host := rfl
@[simp] theorem Mach.setBlk_self (m : Mach n) : m.setBlk m.blk = m := rfl
@[simp] theorem Mach.setBlk_setBlk (m : Mach n) (b c) : (m.setBlk b).setBlk c = m.setBlk c := rfl

@[simp] theorem Mach.setBlk_inj (m : Mach n) (b c : Block n) : m.setBlk b = m.setBlk c ↔ b = c :=
  ⟨fun h => congrArg Mach.blk h, fun h => by rw [h]⟩

@[simp] theorem Mach.advance_blk (m : Mach n) : m.advance.blk = m.blk := rfl
@[simp] theorem Mach.advance_resetIn (m : Mach n) : m.advance.resetIn = m.resetIn := rfl
@[simp] theorem Mach.advance_sched (m : Mach n) : m.advance.sched = m.sched := rfl
@[simp] theorem Mach.advance_parts (m : Mach n) : m.advance.parts = m.parts := rfl
@[simp] theorem Mach.advance_script (m : Mach n) : m.advance.host.script = m.host.script := rfl
@[simp] theorem Mach.advance_names (m : Mach n) : m.advance.host.names = m.host.names := rfl
@[simp] theorem Mach.advance_drawn (m : Mach n) : m.advance.host.drawn = m.host.drawn := rfl
@[simp] theorem Mach.advance_pos (m : Mach n) : m.advance.host.pos = m.host.pos + 1 := rfl

@[simp] theorem Mach.bind_blk (m : Mach n) (k v) : (m.bind k v).blk = m.blk := rfl
@[simp] theorem Mach.bind_resetIn (m : Mach n) (k v) : (m.bind k v).resetIn = m.resetIn := rfl
@[simp] theorem Mach.bind_sched (m : Mach n) (k v) : (m.bind k v).sched = m.sched := rfl
@[simp] theorem Mach.bind_parts (m : Mach n) (k v) : (m.bind k v).parts = m.parts := rfl
@[simp] theorem Mach.bind_script (m : Mach n) (k v) : (m.bind k v).host.script = m.host.script := rfl
@[simp] theorem Mach.bind_drawn (m : Mach n) (k v) : (m.bind k v).host.drawn = m.host.drawn := rfl
@[simp] theorem Mach.bind_pos (m : Mach n) (k v) : (m.bind k v).host.pos = m.host.pos := rfl
@[simp] theorem Mach.bind_names (m : Mach n) (k v) :
    (m.bind k v).host.names = bindName k v m.host.names := rfl

theorem Mach.portTurn_released {m : Mach n} (h : m.resetIn = false) (r) : m.portTurn r = r := by
  simp [Mach.portTurn, h]
theorem Mach.portTurn_inReset {m : Mach n} (h : m.resetIn = true) (r) :
    m.portTurn r = .refused .portDuringHardReset := by simp [Mach.portTurn, h]

@[simp] theorem assertReset_blk (m : Mach n) : (assertReset m).blk = Block.reset n := rfl
@[simp] theorem assertReset_resetIn (m : Mach n) : (assertReset m).resetIn = true := rfl
@[simp] theorem assertReset_sched (m : Mach n) : (assertReset m).sched = m.sched := rfl
@[simp] theorem assertReset_parts (m : Mach n) : (assertReset m).parts = m.parts := rfl
@[simp] theorem assertReset_host (m : Mach n) : (assertReset m).host = m.host := rfl
@[simp] theorem releaseReset_blk (m : Mach n) : (releaseReset m).blk = Block.reset n := rfl
@[simp] theorem releaseReset_resetIn (m : Mach n) : (releaseReset m).resetIn = false := rfl
@[simp] theorem releaseReset_sched (m : Mach n) : (releaseReset m).sched = m.sched := rfl
@[simp] theorem releaseReset_parts (m : Mach n) : (releaseReset m).parts = m.parts := rfl
@[simp] theorem releaseReset_host (m : Mach n) : (releaseReset m).host = m.host := rfl

@[simp] theorem Mach.reset_blk (n : Nat) : (Mach.reset n).blk = Block.reset n := rfl
@[simp] theorem Mach.reset_resetIn (n : Nat) : (Mach.reset n).resetIn = false := rfl
@[simp] theorem Mach.reset_sched (n : Nat) : (Mach.reset n).sched = [] := rfl
@[simp] theorem Mach.reset_parts (n : Nat) : (Mach.reset n).parts = 0 := rfl
@[simp] theorem Mach.reset_host (n : Nat) : (Mach.reset n).host = HostAgent.reset := rfl
@[simp] theorem State.resetAt_mach (w : OpWidth) : (State.resetAt w).mach = Mach.reset w.bits := rfl
@[simp] theorem Block.reset_regs (n : Nat) : (Block.reset n).regs = Regs.reset n := rfl
@[simp] theorem Block.reset_eng (n : Nat) : (Block.reset n).eng = Engine.reset n := rfl
@[simp] theorem Engine.reset_fsm (n : Nat) : (Engine.reset n).fsm = .idle := rfl
@[simp] theorem Regs.reset_done (n : Nat) : (Regs.reset n).done = false := rfl
@[simp] theorem Regs.reset_ovr (n : Nat) : (Regs.reset n).ovr = false := rfl

/-- Two states at one width are equal exactly when their machines are. -/
@[simp] theorem State.mk_inj (w : OpWidth) (m m' : Mach w.bits) :
    ((⟨w, m⟩ : State) = ⟨w, m'⟩) ↔ m = m' := by simp

end Machine
end Sys2Proof
end

