-- ==== Sys2Proof/Laws/Flags.lean ====
section
/-! SUPPORT. The status, control and parameter words as numbers, and the error codes. -/

namespace Sys2Proof.Machine

variable {n : Nat}

theorem ErrCode.code_injective : Function.Injective ErrCode.code := by
  intro a b; cases a <;> cases b <;> simp [ErrCode.code]

/-- The five codes are 0x0 to 0x4; a reserved code never appears (rule R160). -/
theorem ErrCode.code_le (e : ErrCode) : e.code.toNat ≤ 4 := by cases e <;> decide

/-- The 8 defined bits of `STATUS`, as a number (rule R33). -/
theorem status_bits_toNat (c : BitVec 4) (o d b : Bool) :
    (c ++ 0#1 ++ BitVec.ofBool o ++ BitVec.ofBool d ++ BitVec.ofBool b).toNat =
      c.toNat * 16 + o.toNat * 4 + d.toNat * 2 + b.toNat := by
  revert c o d b; decide

/-- The 2 defined bits of `CTRL`, as a number (rule R28). -/
theorem ctrl_bits_toNat (r i : Bool) :
    (BitVec.ofBool r ++ BitVec.ofBool i).toNat = r.toNat * 2 + i.toNat := by
  revert r i; decide

/-- A word of `k` bits in a register of `n ≥ k` bits keeps its value. -/
theorem setWidth_toNat_of_le {k : Nat} (h : k ≤ n) (v : BitVec k) : (v.setWidth n).toNat = v.toNat := by
  have h1 := v.isLt
  have h2 : 2 ^ k ≤ 2 ^ n := Nat.pow_le_pow_right (by decide) h
  simp only [BitVec.toNat_setWidth]
  exact Nat.mod_eq_of_lt (by omega)

/-- What `PARAM` reads, as a number: `REV` above the low 16 bits of `OPW` (rules R24, R25). -/
theorem paramWord_toNat (hn : 32 ≤ n) : (paramWord n).toNat = 65536 + n % 65536 := by
  have h : paramOpwField n = BitVec.ofNat 16 n := rfl
  rw [paramWord, setWidth_toNat_of_le hn, BitVec.toNat_append, h, BitVec.toNat_ofNat]
  exact (Nat.two_pow_add_eq_or_of_lt (i := 16) (Nat.mod_lt n (by decide)) 1).symm

/-- Below `OPW = 131072` the formula of rule R20 is what `PARAM` reads. -/
theorem paramWord_toNat_eq_or (hn : 32 ≤ n) (h : n < 131072) :
    (paramWord n).toNat = 65536 ||| n := by
  have key : ∀ r < 65536, 65536 ||| r = 65536 + r := fun r hr =>
    (Nat.two_pow_add_eq_or_of_lt (i := 16) hr 1).symm
  rw [paramWord_toNat hn]
  rcases Nat.lt_or_ge n 65536 with h1 | h1
  · rw [key n h1, Nat.mod_eq_of_lt h1]
  · obtain ⟨r, rfl⟩ := Nat.exists_eq_add_of_le h1
    rw [Nat.add_mod_left, Nat.mod_eq_of_lt (by omega : r < 65536), ← key r (by omega),
      ← Nat.or_assoc, Nat.or_self]

/-- Below `OPW = 65536` the sum of rule R193 is what `PARAM` reads. -/
theorem paramWord_toNat_eq_add (hn : 32 ≤ n) (h : n < 65536) : (paramWord n).toNat = 65536 + n := by
  rw [paramWord_toNat hn, Nat.mod_eq_of_lt h]

theorem Block.statusWord_toNat (hn : 8 ≤ n) (b : Block n) :
    b.statusWord.toNat = b.regs.err.code.toNat * 16 + b.regs.ovr.toNat * 4 + b.regs.done.toNat * 2 +
      b.busy.toNat := by
  simp only [Block.statusWord]
  rw [setWidth_toNat_of_le (by omega), status_bits_toNat]

theorem Block.ctrlWord_toNat (hn : 8 ≤ n) (b : Block n) :
    b.ctrlWord.toNat = b.regs.rangeChk.toNat * 2 + b.regs.irqEn.toNat := by
  simp only [Block.ctrlWord]
  rw [setWidth_toNat_of_le (by omega), ctrl_bits_toNat]

end Sys2Proof.Machine
end

