-- ==== Sys2Proof/Laws/Ops.lean ====
section
/-! SUPPORT. What the shared operations do: one lemma for each. -/

namespace Sys2Proof.Machine

variable {n : Nat}

theorem Block.busy_iff (b : Block n) : b.busy = true ↔ b.eng.fsm ≠ .idle := by simp [Block.busy]

theorem Block.busy_eq_false_iff (b : Block n) : b.busy = false ↔ b.eng.fsm = .idle := by
  simp [Block.busy]

@[simp] theorem Block.complete_fsm (b : Block n) (err r aux it) :
    (b.complete err r aux it).eng.fsm = .idle := rfl
@[simp] theorem Block.complete_done (b : Block n) (err r aux it) :
    (b.complete err r aux it).regs.done = true := rfl
@[simp] theorem Block.complete_err (b : Block n) (err r aux it) :
    (b.complete err r aux it).regs.err = err := rfl
@[simp] theorem Block.complete_result (b : Block n) (err r aux it) :
    (b.complete err r aux it).regs.result = r := rfl
@[simp] theorem Block.complete_aux (b : Block n) (err r aux it) :
    (b.complete err r aux it).regs.aux = aux := rfl
@[simp] theorem Block.complete_iter (b : Block n) (err r aux it) :
    (b.complete err r aux it).regs.iter = it := rfl

/-- What a completion leaves unchanged (rule R106). -/
theorem Block.complete_frame (b : Block n) (err r aux it) :
    (b.complete err r aux it).regs =
      { b.regs with result := r, aux := aux, iter := it, err := err, done := true } ∧
    (b.complete err r aux it).eng = { b.eng with fsm := .idle } := ⟨rfl, rfl⟩

/-- A `CMD` write is accepted by an idle block and dropped by a busy one (rules R100, R101). -/
theorem Block.writeCmd_cases (b : Block n) (v : Word n) :
    (b.eng.fsm = .idle ∧ b.writeCmd v = b.accept v) ∨
    (b.eng.fsm ≠ .idle ∧ b.writeCmd v = b.drop) := by
  by_cases h : b.eng.fsm = .idle <;> simp [Block.writeCmd, Block.busy, h]

/-- Accepting (rule R100): the register file and the engine afterwards. -/
theorem Block.accept_spec (b : Block n) (v : Word n) :
    (b.accept v).regs = { b.regs with done := false, err := .none } ∧
    (b.accept v).eng = { b.eng with
      cmd := v, rc := b.regs.rangeChk, la := b.regs.opa, lb := b.regs.opb, lc := b.regs.opc,
      cnt := 0, fsm := .check } := ⟨rfl, rfl⟩

/-- A nonzero modulus is a positive number. -/
theorem toNat_pos_of_ne_zero {m : Word n} (h : m ≠ 0) : 0 < m.toNat :=
  Nat.pos_of_ne_zero fun h0 => h (BitVec.eq_of_toNat_eq (by simpa using h0))

theorem modmul_of_ne_zero (x y : Word n) {m : Word n} (h : m ≠ 0) :
    modmul x y m = BitVec.ofNat n (x.toNat * y.toNat % m.toNat) := if_neg h

/-- The outcome of an engine step is next exactly when the step is enabled; nothing outside the block
changes. -/
theorem engineOutcome_next_iff (w : OpWidth) (m : Mach w.bits) (r : Option (Block w.bits)) (t : State) :
    engineOutcome w m r = .next t ↔ ∃ b, r = some b ∧ t = ⟨w, m.setBlk b⟩ := by
  cases r <;> simp [engineOutcome, eq_comm]

@[simp] theorem engineOutcome_some (w : OpWidth) (m : Mach w.bits) (b : Block w.bits) :
    engineOutcome w m (some b) = .next ⟨w, m.setBlk b⟩ := rfl

@[simp] theorem engineOutcome_none (w : OpWidth) (m : Mach w.bits) :
    engineOutcome w m none = .refused .engineStepNotEnabled := rfl

@[simp] theorem liftOutcome_next (w : OpWidth) (m : Mach w.bits) :
    liftOutcome w (.next m) = .next ⟨w, m⟩ := rfl
@[simp] theorem liftOutcome_fault (w : OpWidth) (f : Fault) : liftOutcome w (.fault f) = .fault f := rfl
@[simp] theorem liftOutcome_refused (w : OpWidth) (r : Refusal) :
    liftOutcome w (.refused r) = .refused r := rfl

/-- A lifted outcome is next exactly when the outcome is, at the same width. -/
theorem liftOutcome_next_iff (w : OpWidth) (o : Host.Outcome (Mach w.bits) Fault Refusal) (t : State) :
    liftOutcome w o = .next t ↔ ∃ m, o = .next m ∧ t = ⟨w, m⟩ := by
  cases o <;> simp [eq_comm]

theorem liftOutcome_fault_iff (w : OpWidth) (o : Host.Outcome (Mach w.bits) Fault Refusal) (f : Fault) :
    liftOutcome w o = .fault f ↔ o = .fault f := by cases o <;> simp

theorem liftOutcome_refused_iff (w : OpWidth) (o : Host.Outcome (Mach w.bits) Fault Refusal)
    (r : Refusal) : liftOutcome w o = .refused r ↔ o = .refused r := by cases o <;> simp

end Sys2Proof.Machine
end

