-- ==== Sys2Proof/Laws/Meanings.lean ====
section
/-! SUPPORT. The meanings of the commands as steps of the block, and what any of them can do. -/

namespace Sys2Proof.Machine

variable {n : Nat}

/-- A command's engine step on the block, by command. -/
def blockStep (i : Instr) (b : Block n) : Option (Block n) :=
  match i with
  | .gcd => gcdBlock b
  | .inv => invBlock b
  | .modexp => modexpBlock b
  | .modmul => modmulBlock b

theorem exec_eq (i : Instr) (w : OpWidth) (m : Mach w.bits) :
    exec i ⟨w, m⟩ = engineOutcome w m (blockStep i m.blk) := by
  cases i <;> rfl

/-- `exec` answers a next state exactly when the command's step is enabled, and changes the block alone. -/
theorem exec_next_iff (i : Instr) (w : OpWidth) (m : Mach w.bits) (t : State) :
    exec i ⟨w, m⟩ = .next t ↔ ∃ b, blockStep i m.blk = some b ∧ t = ⟨w, m.setBlk b⟩ := by
  rw [exec_eq, engineOutcome_next_iff]

theorem exec_next_setBlk_iff (i : Instr) (w : OpWidth) (m : Mach w.bits) (b : Block w.bits) :
    exec i ⟨w, m⟩ = .next ⟨w, m.setBlk b⟩ ↔ blockStep i m.blk = some b := by
  rw [exec_next_iff]
  constructor
  · rintro ⟨c, hc, e⟩
    simp only [State.mk_inj, Mach.setBlk_inj] at e
    rwa [e]
  · exact fun h => ⟨b, h, rfl⟩

theorem gcdBlock_check {b : Block n} (h : b.eng.fsm = .check) : gcdBlock b = some (gcdCheck b) := by
  simp [gcdBlock, h]
theorem gcdBlock_loop {b : Block n} (h : b.eng.fsm = .gcdLoop) : gcdBlock b = some (gcdLoopStep b) := by
  simp [gcdBlock, h]
theorem invBlock_check {b : Block n} (h : b.eng.fsm = .check) : invBlock b = some (invCheck b) := by
  simp [invBlock, h]
theorem invBlock_loop {b : Block n} (h : b.eng.fsm = .invLoop) : invBlock b = some (invLoopStep b) := by
  simp [invBlock, h]
theorem modexpBlock_check {b : Block n} (h : b.eng.fsm = .check) :
    modexpBlock b = some (modexpCheck b) := by simp [modexpBlock, h]
theorem modexpBlock_loop {b : Block n} (h : b.eng.fsm = .expLoop) :
    modexpBlock b = some (modexpLoopStep b) := by simp [modexpBlock, h]
theorem modmulBlock_check {b : Block n} (h : b.eng.fsm = .check) :
    modmulBlock b = some (modmulCheck b) := by simp [modmulBlock, h]

/-- Where a command's step is enabled: at `CHECK`, and in the command's own loop (rule R103). -/
theorem blockStep_isSome_iff (i : Instr) (b : Block n) :
    (blockStep i b).isSome = true ↔
      b.eng.fsm = .check ∨ (i = .gcd ∧ b.eng.fsm = .gcdLoop) ∨ (i = .inv ∧ b.eng.fsm = .invLoop) ∨
        (i = .modexp ∧ b.eng.fsm = .expLoop) := by
  cases i <;> cases h : b.eng.fsm <;>
    simp [blockStep, gcdBlock, invBlock, modexpBlock, modmulBlock, h]

/-! ### The roles (rule R84) -/

@[simp] theorem Engine.operand_gcdA (e : Engine n) : e.operand .gcdA = e.la := rfl
@[simp] theorem Engine.operand_gcdB (e : Engine n) : e.operand .gcdB = e.lb := rfl
@[simp] theorem Engine.operand_invE (e : Engine n) : e.operand .invE = e.la := rfl
@[simp] theorem Engine.operand_invM (e : Engine n) : e.operand .invM = e.lb := rfl
@[simp] theorem Engine.operand_expBase (e : Engine n) : e.operand .expBase = e.la := rfl
@[simp] theorem Engine.operand_expExponent (e : Engine n) : e.operand .expExponent = e.lb := rfl
@[simp] theorem Engine.operand_expModulus (e : Engine n) : e.operand .expModulus = e.lc := rfl
@[simp] theorem Engine.operand_mulA (e : Engine n) : e.operand .mulA = e.la := rfl
@[simp] theorem Engine.operand_mulB (e : Engine n) : e.operand .mulB = e.lb := rfl
@[simp] theorem Engine.operand_mulModulus (e : Engine n) : e.operand .mulModulus = e.lc := rfl

/-! ### Each branch of a step, on the block -/

theorem gcdLoopStep_done {b : Block n} (h : b.eng.b = 0) :
    gcdLoopStep b = b.complete .none b.eng.a 0 b.eng.cnt := if_pos h
theorem gcdLoopStep_iterate {b : Block n} (h : b.eng.b ≠ 0) :
    gcdLoopStep b = { b with eng := { b.eng with
      a := b.eng.b, b := b.eng.a % b.eng.b, cnt := b.eng.cnt + 1 } } := if_neg h
theorem invLoopStep_done {b : Block n} (h : b.eng.b = 0) : invLoopStep b = invFinalize b := if_pos h
theorem invLoopStep_iterate {b : Block n} (h : b.eng.b ≠ 0) : invLoopStep b = invIterate b := if_neg h
theorem modexpLoopStep_done {b : Block n} (h : b.eng.exp = 0) :
    modexpLoopStep b = b.complete .none b.eng.acc 0 b.eng.cnt := if_pos h
theorem modexpLoopStep_iterate {b : Block n} (h : b.eng.exp ≠ 0) :
    modexpLoopStep b = modexpIterate b := if_neg h
theorem modexpCheck_modulusZero {b : Block n} (h : b.eng.lc = 0) :
    modexpCheck b = b.fail .modulusZero := if_pos h
theorem modexpCheck_outOfRange {b : Block n} (h : b.eng.lc ≠ 0) (hr : b.eng.rc = true)
    (hl : b.eng.lc.toNat ≤ b.eng.la.toNat) : modexpCheck b = b.fail .messageOutOfRange :=
  (if_neg h).trans (if_pos ⟨hr, hl⟩)
theorem modexpCheck_load {b : Block n} (h : b.eng.lc ≠ 0)
    (hr : ¬ (b.eng.rc = true ∧ b.eng.lc.toNat ≤ b.eng.la.toNat)) :
    modexpCheck b = { b with eng := { b.eng with
      acc := 1 % b.eng.lc, base := b.eng.la % b.eng.lc, exp := b.eng.lb, fsm := .expLoop } } :=
  (if_neg h).trans (if_neg hr)
theorem modmulCheck_modulusZero {b : Block n} (h : b.eng.lc = 0) :
    modmulCheck b = b.fail .modulusZero := if_pos h
theorem modmulCheck_multiply {b : Block n} (h : b.eng.lc ≠ 0) :
    modmulCheck b = b.complete .none (modmul b.eng.la b.eng.lb b.eng.lc) 0 1 := if_neg h

/-- The remainder of two words is the word of the remainder; it does not wrap. -/
theorem word_mod (x y : Word n) : x % y = BitVec.ofNat n (x.toNat % y.toNat) :=
  BitVec.eq_of_toNat_eq (by
    rw [BitVec.toNat_umod, BitVec.toNat_ofNat,
      Nat.mod_eq_of_lt (lt_of_le_of_lt (Nat.mod_le _ _) x.isLt)])

/-- The new `eng.b` of an `INV` iteration is the remainder (rule R131). -/
theorem inv_remainder (x y : Word n) :
    (BitVec.ofNat n (x.toNat - x.toNat / y.toNat * y.toNat)).toNat = x.toNat % y.toNat := by
  have h := Nat.div_add_mod' x.toNat y.toNat
  have e : x.toNat - x.toNat / y.toNat * y.toNat = x.toNat % y.toNat := by omega
  rw [e, BitVec.toNat_ofNat, Nat.mod_eq_of_lt (lt_of_le_of_lt (Nat.mod_le _ _) x.isLt)]

/-- Halving a word (rule R142). -/
theorem word_shiftRight_one (x : Word n) : x >>> 1 = BitVec.ofNat n (x.toNat / 2) :=
  BitVec.eq_of_toNat_eq (by
    rw [BitVec.toNat_ushiftRight, Nat.shiftRight_eq_div_pow, pow_one, BitVec.toNat_ofNat,
      Nat.mod_eq_of_lt (lt_of_le_of_lt (Nat.div_le_self _ _) x.isLt)])

/-- Bit 0 of a word is its parity (rule R10). -/
theorem word_bit_zero (x : Word n) : x.getLsbD 0 = decide (x.toNat % 2 = 1) := by
  simp [BitVec.getLsbD, Nat.testBit_zero]

/-- What a command's step can do to the block: complete the command, or change the engine's working
registers and its counter while it stays busy (rules R103, R106). -/
theorem blockStep_cases {i : Instr} {b c : Block n} (h : blockStep i b = some c) :
    (∃ err r aux it, c = b.complete err r aux it) ∨
    (c.regs = b.regs ∧ c.eng.fsm ≠ .idle ∧ c.eng.cmd = b.eng.cmd ∧ c.eng.rc = b.eng.rc ∧
      c.eng.la = b.eng.la ∧ c.eng.lb = b.eng.lb ∧ c.eng.lc = b.eng.lc) := by
  cases i with
  | gcd =>
    simp only [blockStep, gcdBlock] at h
    split at h <;> cases h
    · exact .inr (by simp [gcdCheck])
    · by_cases hb : b.eng.b = 0
      · exact .inl ⟨_, _, _, _, if_pos hb⟩
      · rw [gcdLoopStep, if_neg hb]; exact .inr (by simp_all)
  | inv =>
    simp only [blockStep, invBlock] at h
    split at h <;> cases h
    · exact .inr (by simp [invCheck])
    · by_cases hb : b.eng.b = 0
      · exact .inl ⟨_, _, _, _, if_pos hb⟩
      · rw [invLoopStep, if_neg hb]; exact .inr (by simp_all [invIterate])
  | modexp =>
    simp only [blockStep, modexpBlock] at h
    split at h <;> cases h
    · simp only [modexpCheck]
      split
      · exact .inl ⟨_, _, _, _, rfl⟩
      · split
        · exact .inl ⟨_, _, _, _, rfl⟩
        · exact .inr (by simp)
    · by_cases hb : b.eng.exp = 0
      · exact .inl ⟨_, _, _, _, if_pos hb⟩
      · rw [modexpLoopStep, if_neg hb]; exact .inr (by simp_all [modexpIterate])
  | modmul =>
    simp only [blockStep, modmulBlock] at h
    split at h <;> cases h
    simp only [modmulCheck]
    split
    · exact .inl ⟨_, _, _, _, rfl⟩
    · exact .inl ⟨_, _, _, _, rfl⟩

/-- A command's step depends on the engine alone: on another register file it changes the engine in the
same way, and completes with the same values or leaves the register file (rules R103, R109). -/
theorem blockStep_congr {i : Instr} {b c d : Block n} (he : c.eng = b.eng)
    (h : blockStep i b = some d) :
    ∃ d', blockStep i c = some d' ∧ d'.eng = d.eng ∧
      ((d.regs = b.regs ∧ d'.regs = c.regs ∧ d.eng.fsm ≠ .idle) ∨
        (d.eng.fsm = .idle ∧
          d'.regs = { c.regs with
            result := d.regs.result, aux := d.regs.aux, iter := d.regs.iter, err := d.regs.err,
            done := true } ∧
          d.regs = { b.regs with
            result := d.regs.result, aux := d.regs.aux, iter := d.regs.iter, err := d.regs.err,
            done := true })) := by
  obtain ⟨rb, eb⟩ := b
  obtain ⟨rc, ec⟩ := c
  cases he
  cases i <;> simp only [blockStep, gcdBlock, invBlock, modexpBlock, modmulBlock] at h ⊢ <;>
    split at h <;> cases h <;> rename_i hf <;> replace hf : eb.fsm = _ := hf
  · exact ⟨_, rfl, rfl, .inl ⟨rfl, rfl, by simp [gcdCheck]⟩⟩
  · refine ⟨_, rfl, ?_⟩
    simp only [gcdLoopStep]; split
    · exact ⟨rfl, .inr ⟨rfl, rfl, rfl⟩⟩
    · exact ⟨rfl, .inl ⟨rfl, rfl, by simp [hf]⟩⟩
  · exact ⟨_, rfl, rfl, .inl ⟨rfl, rfl, by simp [invCheck]⟩⟩
  · refine ⟨_, rfl, ?_⟩
    simp only [invLoopStep]; split
    · exact ⟨rfl, .inr ⟨rfl, rfl, rfl⟩⟩
    · exact ⟨rfl, .inl ⟨rfl, rfl, by simp [invIterate, hf]⟩⟩
  · refine ⟨_, rfl, ?_⟩
    simp only [modexpCheck]; split
    · exact ⟨rfl, .inr ⟨rfl, rfl, rfl⟩⟩
    · split
      · exact ⟨rfl, .inr ⟨rfl, rfl, rfl⟩⟩
      · exact ⟨rfl, .inl ⟨rfl, rfl, by simp⟩⟩
  · refine ⟨_, rfl, ?_⟩
    simp only [modexpLoopStep]; split
    · exact ⟨rfl, .inr ⟨rfl, rfl, rfl⟩⟩
    · exact ⟨rfl, .inl ⟨rfl, rfl, by simp [modexpIterate, hf]⟩⟩
  · refine ⟨_, rfl, ?_⟩
    simp only [modmulCheck]; split
    · exact ⟨rfl, .inr ⟨rfl, rfl, rfl⟩⟩
    · exact ⟨rfl, .inr ⟨rfl, rfl, rfl⟩⟩

end Sys2Proof.Machine
end

