-- ==== Sys2Proof/Laws/Loops.lean ====
section
/-! SUPPORT. The three loops: their invariants at the check step, under an iteration and at completion,
and the number of steps they have left. -/

namespace Sys2Proof.Machine

variable {n : Nat}

/-- Adding one iteration to a counter that has room for it. -/
theorem cnt_succ {c : Word n} (h : c.toNat + 1 < 2 ^ n) : (c + 1).toNat = c.toNat + 1 := by
  have h1 : (1 : Word n).toNat = 1 % 2 ^ n := by simp
  rw [BitVec.toNat_add, h1, Nat.add_mod_mod]
  exact Nat.mod_eq_of_lt h

/-- The counters of the loops have room: `2·n + 2` is below `2^n` at every legal width (rule R38). -/
theorem counter_room (h : 32 ≤ n) : 2 * n + 2 < 2 ^ n := by
  obtain ⟨k, rfl⟩ : ∃ k, n = 32 + k := ⟨n - 32, by omega⟩
  induction k with
  | zero => decide
  | succ k ih => rw [← Nat.add_assoc, pow_succ]; have := ih (by omega); omega

/-! ### GCD -/

theorem gcdLoopInv_check {b : Block n} (hc : decode b.eng.cmd = some .gcd) (h0 : b.eng.cnt = 0) :
    GcdLoopInv (gcdCheck b).eng where
  cmd := hc
  gcd := rfl
  count := by simp [gcdCheck, h0]

theorem gcdLoopInv_iterate (hn : 32 ≤ n) {b : Block n} (h : GcdLoopInv b.eng) (hb : b.eng.b ≠ 0) :
    GcdLoopInv (gcdLoopStep b).eng := by
  have hb' : b.eng.b.toNat ≠ 0 := (toNat_pos_of_ne_zero hb).ne'
  have hcount := h.count
  rw [euclidIters_of_ne_zero _ hb'] at hcount
  have hle := euclidIters_le n (a := b.eng.la.toNat) b.eng.lb.isLt
  have hroom := counter_room hn
  rw [gcdLoopStep_iterate hb]
  refine ⟨h.cmd, ?_, ?_⟩
  · show Nat.gcd b.eng.b.toNat (b.eng.a % b.eng.b).toNat = _
    rw [BitVec.toNat_umod, ← h.gcd, Nat.gcd_comm, ← Nat.gcd_rec, Nat.gcd_comm]
  · show (b.eng.cnt + 1).toNat + euclidIters b.eng.b.toNat (b.eng.a % b.eng.b).toNat = _
    rw [BitVec.toNat_umod, cnt_succ (by omega), ← hcount]
    omega

theorem deliveredGcd_complete {b : Block n} (h : GcdLoopInv b.eng) (hb : b.eng.b = 0) :
    DeliveredGcd (gcdLoopStep b).regs (gcdLoopStep b).eng := by
  have hb0 : b.eng.b.toNat = 0 := by simp [hb]
  have hg := h.gcd
  have hc := h.count
  rw [hb0] at hg hc
  rw [gcdLoopStep_done hb]
  exact ⟨rfl, (Nat.gcd_zero_right _).symm.trans hg, by simp, hc⟩

/-! ### INV -/

theorem invLoopInv_check {b : Block n} (hc : decode b.eng.cmd = some .inv) (h0 : b.eng.cnt = 0) :
    InvLoopInv (invCheck b).eng where
  cmd := hc
  gcd := Nat.gcd_comm _ _
  count := by simp [invCheck, h0]
  congA := by simp [invCheck]
  congB := by simp [invCheck]
  signs := by simp [invCheck]
  det := by simp [invCheck]
  order := .inr ⟨rfl, rfl⟩
  growth := .inl (by simp [invCheck])
  start := fun _ => ⟨rfl, rfl⟩

/-- The magnitude of the new coefficient: the two coefficients never have the same sign, so the
subtraction adds magnitudes (rule R134). -/
theorem natAbs_sub_mul {x0 x1 : Int} (q : Nat) (h : x0 * x1 ≤ 0) :
    (x0 - q * x1).natAbs = x0.natAbs + q * x1.natAbs := by
  have e : q * x1.natAbs = (q * x1 : Int).natAbs := by rw [Int.natAbs_mul, Int.natAbs_natCast]
  have hy : x0 * (q * x1) ≤ 0 := by
    have : x0 * (q * x1) = q * (x0 * x1) := by ring
    rw [this]
    exact mul_nonpos_of_nonneg_of_nonpos (Int.natCast_nonneg q) h
  rw [e]
  generalize (q * x1 : Int) = y at hy
  rcases mul_nonpos_iff.1 hy with h | h <;> omega

theorem invLoopInv_iterate (hn : 32 ≤ n) {b : Block n} (h : InvLoopInv b.eng) (hb : b.eng.b ≠ 0) :
    InvLoopInv (invLoopStep b).eng := by
  have hpos := toNat_pos_of_ne_zero hb
  have hcount := h.count
  rw [euclidIters_of_ne_zero _ hpos.ne'] at hcount
  have hle := euclidIters_le n (a := b.eng.lb.toNat) b.eng.la.isLt
  have hroom := counter_room hn
  have hr := inv_remainder b.eng.a b.eng.b
  have hdm := Nat.div_add_mod' b.eng.a.toNat b.eng.b.toNat
  have hlt := Nat.mod_lt b.eng.a.toNat hpos
  have habs := natAbs_sub_mul (b.eng.a.toNat / b.eng.b.toNat) h.signs
  rw [invLoopStep_iterate hb]
  simp only [invIterate]
  refine ⟨h.cmd, ?_, ?_, h.congB, ?_, ?_, ?_, ?_, ?_, fun h0 => absurd h0 hb⟩ <;> simp only [hr]
  · rw [← h.gcd, Nat.gcd_comm, ← Nat.gcd_rec, Nat.gcd_comm]
  · rw [cnt_succ (by omega)]; omega
  · have := dvd_sub h.congA (Dvd.dvd.mul_left h.congB (b.eng.a.toNat / b.eng.b.toNat : Nat))
    have e : ((b.eng.a.toNat % b.eng.b.toNat : Nat) : Int)
        = b.eng.a.toNat - (b.eng.a.toNat / b.eng.b.toNat : Nat) * b.eng.b.toNat := by
      have : ((b.eng.a.toNat / b.eng.b.toNat * b.eng.b.toNat + b.eng.a.toNat % b.eng.b.toNat : Nat) : Int)
          = b.eng.a.toNat := by rw [hdm]
      push_cast at this ⊢; omega
    rw [e]
    have e2 : (b.eng.x0 - (b.eng.a.toNat / b.eng.b.toNat : Nat) * b.eng.x1) * b.eng.la.toNat
        - (b.eng.a.toNat - (b.eng.a.toNat / b.eng.b.toNat : Nat) * b.eng.b.toNat : Int)
        = (b.eng.x0 * b.eng.la.toNat - b.eng.a.toNat)
          - (b.eng.a.toNat / b.eng.b.toNat : Nat) * (b.eng.x1 * b.eng.la.toNat - b.eng.b.toNat) := by
      ring
    rw [e2]; exact this
  · have h1 := h.signs
    have h2 : (0 : Int) ≤ (b.eng.a.toNat / b.eng.b.toNat : Nat) * (b.eng.x1 * b.eng.x1) :=
      mul_nonneg (Int.natCast_nonneg _) (mul_self_nonneg _)
    nlinarith
  · rw [habs, ← h.det]
    generalize b.eng.a.toNat / b.eng.b.toNat = q at *
    generalize b.eng.a.toNat % b.eng.b.toNat = r at *
    rw [← hdm]
    ring
  · exact .inl hlt.le
  · rw [habs]
    by_cases hq : b.eng.a.toNat / b.eng.b.toNat = 0
    · have hab : b.eng.a.toNat < b.eng.b.toNat := by
        rcases Nat.div_eq_zero_iff.1 hq with h | h <;> omega
      rcases h.order with ho | ⟨ho1, ho2⟩
      · omega
      · exact .inr (by simp [ho1, ho2, hq])
    · exact .inl (by have := Nat.le_mul_of_pos_left b.eng.x1.natAbs (Nat.pos_of_ne_zero hq); omega)

/-- The coefficients stay within `max(m, 1)` (rule R134). -/
theorem InvLoopInv.bounds {e : Engine n} (h : InvLoopInv e) :
    e.x0.natAbs ≤ max e.lb.toNat 1 ∧ e.x1.natAbs ≤ max e.lb.toNat 1 := by
  by_cases ha : e.a = 0
  · obtain ⟨h0, h1⟩ := h.start ha
    simp [h0, h1]
  · have hpos := toNat_pos_of_ne_zero ha
    have hd := h.det
    have h1 : e.x1.natAbs ≤ e.lb.toNat := by
      have := Nat.le_mul_of_pos_right e.x1.natAbs hpos; omega
    rcases h.growth with hg | ⟨hg, _⟩
    · omega
    · rw [hg]; simp; omega

/-- So does the intermediate product (rule R134). -/
theorem InvLoopInv.product_bound {e : Engine n} (h : InvLoopInv e) (hb : e.b ≠ 0) :
    (((e.a.toNat / e.b.toNat : Nat) : Int) * e.x1).natAbs ≤ max e.lb.toNat 1 := by
  rw [Int.natAbs_mul, Int.natAbs_natCast]
  have hpos := toNat_pos_of_ne_zero hb
  have hd := h.det
  have h1 : e.a.toNat / e.b.toNat * e.x1.natAbs ≤ e.x1.natAbs * e.a.toNat := by
    rw [Nat.mul_comm]
    exact Nat.mul_le_mul_left _ (Nat.div_le_self _ _)
  omega

/-- What finalize delivers from a state the invariant admits: `0 ≤ d ≤ max(m, 1)`, and
`e·d ≡ a (mod m)` (rules R133, R134). -/
theorem InvLoopInv.final {e : Engine n} (h : InvLoopInv e) (hb : e.b = 0) :
    0 ≤ invResult e.x0 e.lb ∧ invResult e.x0 e.lb ≤ max e.lb.toNat 1 ∧
      (e.lb.toNat : Int) ∣ e.la.toNat * invResult e.x0 e.lb - e.a.toNat ∧
      e.a.toNat = Nat.gcd e.la.toNat e.lb.toNat := by
  have hbd := h.bounds
  have hg := h.gcd
  rw [show e.b.toNat = 0 by simp [hb], Nat.gcd_zero_right] at hg
  have hx0 : e.x0 < 0 → e.x0.natAbs ≤ e.lb.toNat := by
    intro hneg
    by_cases ha : e.a = 0
    · have := (h.start ha).1; omega
    · have hpos := toNat_pos_of_ne_zero ha
      have hd := h.det
      have := Nat.le_mul_of_pos_right e.x1.natAbs hpos
      rcases h.growth with hgr | ⟨hgr, _⟩
      · omega
      · omega
  refine ⟨?_, ?_, ?_, hg⟩
  · unfold invResult; split <;> omega
  · unfold invResult; split <;> omega
  · have hc := h.congA
    unfold invResult
    split
    · have e1 : (e.la.toNat * (e.x0 + e.lb.toNat) - e.a.toNat : Int)
          = (e.x0 * e.la.toNat - e.a.toNat) + e.lb.toNat * e.la.toNat := by ring
      rw [e1]
      exact dvd_add hc (dvd_mul_right _ _)
    · rw [mul_comm]; exact hc

theorem deliveredInv_complete (hn : 32 ≤ n) {b : Block n} (h : InvLoopInv b.eng) (hb : b.eng.b = 0) :
    DeliveredInv (invLoopStep b).regs (invLoopStep b).eng := by
  obtain ⟨h0, h1, h2, hg⟩ := h.final hb
  have hc := h.count
  rw [show b.eng.b.toNat = 0 by simp [hb]] at hc
  have hroom := counter_room hn
  have hlt := b.eng.lb.isLt
  obtain ⟨d, hd⟩ := Int.eq_ofNat_of_zero_le h0
  have hres : (BitVec.ofInt n (invResult b.eng.x0 b.eng.lb)).toNat = d := by
    rw [hd, BitVec.ofInt_natCast, BitVec.toNat_ofNat]
    exact Nat.mod_eq_of_lt (by omega)
  rw [hd] at h1 h2
  rw [invLoopStep_done hb]
  refine ⟨hg, hc, ?_, ?_, ?_, ?_⟩
  · simp only [invFinalize, invErr, Block.complete, hg]
  · show (BitVec.ofInt n (invResult b.eng.x0 b.eng.lb)).toNat ≤ _
    rw [hres]; exact_mod_cast h1
  · show ((b.eng.lb.toNat : Int) ∣
      b.eng.la.toNat * (BitVec.ofInt n (invResult b.eng.x0 b.eng.lb)).toNat - _)
    rw [hres]
    change (_ ∣ _ - ((Nat.gcd b.eng.la.toNat b.eng.lb.toNat : Nat) : Int))
    rw [← hg]; exact h2
  · intro herr
    show (BitVec.ofInt n (invResult b.eng.x0 b.eng.lb)).toNat < b.eng.lb.toNat ∧
      b.eng.la.toNat * (BitVec.ofInt n (invResult b.eng.x0 b.eng.lb)).toNat % b.eng.lb.toNat = 1
    rw [hres]
    have hok : b.eng.a.toNat = 1 ∧ 2 ≤ b.eng.lb.toNat := by
      by_contra hne
      simp [invFinalize, invErr, Block.complete, hne] at herr
    rw [hok.1] at h2
    have hmod : b.eng.la.toNat * d % b.eng.lb.toNat = 1 := by
      have h3 : (b.eng.la.toNat * d : Int) % b.eng.lb.toNat = 1 % b.eng.lb.toNat :=
        Int.emod_eq_emod_iff_emod_sub_eq_zero.2 (Int.emod_eq_zero_of_dvd (by exact_mod_cast h2))
      rw [Int.emod_eq_of_lt (by omega) (by omega : (1 : Int) < b.eng.lb.toNat)] at h3
      exact_mod_cast h3
    refine ⟨?_, hmod⟩
    have hle : d ≤ b.eng.lb.toNat := by omega
    rcases hle.lt_or_eq with h | h
    · exact h
    · rw [h, Nat.mul_mod_left] at hmod; omega

/-! ### MODEXP and MODMUL -/

/-- The multiplier's value as a number (rule R139). -/
theorem modmul_toNat (x y : Word n) {m : Word n} (h : m ≠ 0) :
    (modmul x y m).toNat = x.toNat * y.toNat % m.toNat := by
  rw [modmul_of_ne_zero _ _ h, BitVec.toNat_ofNat, Nat.mod_eq_of_lt]
  exact (Nat.mod_lt _ (toNat_pos_of_ne_zero h)).trans m.isLt

theorem word_one_toNat (hn : 32 ≤ n) : (1 : Word n).toNat = 1 := by
  have : 1 < 2 ^ n := Nat.one_lt_two_pow (by omega)
  simp [Nat.mod_eq_of_lt this]

theorem expLoopInv_check (hn : 32 ≤ n) {b : Block n} (hc : decode b.eng.cmd = some .modexp)
    (h0 : b.eng.cnt = 0) (hl : b.eng.lc ≠ 0)
    (hr : ¬ (b.eng.rc = true ∧ b.eng.lc.toNat ≤ b.eng.la.toNat)) : ExpLoopInv (modexpCheck b).eng := by
  have hpos := toNat_pos_of_ne_zero hl
  rw [modexpCheck_load hl hr]
  refine ⟨hc, hl, fun h => ?_, ?_, ?_, ?_, ?_⟩
  · exact Nat.lt_of_not_le fun hle => hr ⟨h, hle⟩
  · exact (BitVec.toNat_umod ▸ Nat.mod_lt _ hpos)
  · exact (BitVec.toNat_umod ▸ Nat.mod_lt _ hpos)
  · simp only [BitVec.toNat_umod, word_one_toNat hn]
    rw [Nat.mul_mod, Nat.mod_mod, ← Nat.pow_mod, ← Nat.mul_mod, one_mul]
  · simp [h0]

theorem expLoopInv_iterate (hn : 32 ≤ n) {b : Block n} (h : ExpLoopInv b.eng) (hb : b.eng.exp ≠ 0) :
    ExpLoopInv (modexpLoopStep b).eng := by
  have hpos := toNat_pos_of_ne_zero h.modulus
  have hexp := (toNat_pos_of_ne_zero hb).ne'
  have hcount := h.count
  rw [bitlen_half hexp] at hcount
  have hle := bitlen_le b.eng.lb.isLt
  have hroom := counter_room hn
  have hhalf : (b.eng.exp >>> 1).toNat = b.eng.exp.toNat / 2 := by
    rw [BitVec.toNat_ushiftRight, Nat.shiftRight_eq_div_pow, pow_one]
  have hp := h.power
  have hdm := Nat.div_add_mod b.eng.exp.toNat 2
  rw [modexpLoopStep_iterate hb]
  simp only [modexpIterate, word_bit_zero, decide_eq_true_eq]
  refine ⟨h.cmd, h.modulus, h.range, ?_, ?_, ?_, ?_⟩
  · show (if _ then _ else _ : Word n).toNat < _
    split
    · rw [modmul_toNat _ _ h.modulus]; exact Nat.mod_lt _ hpos
    · exact h.acc
  · show (modmul _ _ _).toNat < _
    rw [modmul_toNat _ _ h.modulus]; exact Nat.mod_lt _ hpos
  · show (if _ then _ else _ : Word n).toNat * (modmul _ _ _).toNat ^ (b.eng.exp >>> 1).toNat % _ = _
    rw [hhalf, modmul_toNat _ _ h.modulus, ← hp]
    generalize b.eng.exp.toNat / 2 = k at *
    rw [Nat.mul_mod, ← Nat.pow_mod, ← pow_two, ← pow_mul]
    split
    · rename_i ho
      rw [modmul_toNat _ _ h.modulus, Nat.mod_mod, ← Nat.mul_mod, ← hdm, ho, pow_succ]
      ring_nf
    · rw [← Nat.mul_mod, ← hdm, show b.eng.exp.toNat % 2 = 0 by omega, Nat.add_zero]
  · show (b.eng.cnt + 1).toNat + bitlen (b.eng.exp >>> 1).toNat = bitlen b.eng.lb.toNat
    rw [hhalf, cnt_succ (by omega)]; omega

theorem deliveredModexp_of_zero {r : Regs n} {e : Engine n} (h : e.lc = 0)
    (g : r.holds .modulusZero 0 0 0) : DeliveredModexp r e := by
  unfold DeliveredModexp; rwa [if_pos (by simp [h])]

theorem deliveredModexp_of_range {r : Regs n} {e : Engine n} (h : e.lc ≠ 0)
    (hr : e.rc = true ∧ e.lc.toNat ≤ e.la.toNat) (g : r.holds .messageOutOfRange 0 0 0) :
    DeliveredModexp r e := by
  unfold DeliveredModexp; rwa [if_neg (toNat_pos_of_ne_zero h).ne', if_pos hr]

theorem deliveredModexp_of_power {r : Regs n} {e : Engine n} (h : e.lc ≠ 0)
    (hr : ¬ (e.rc = true ∧ e.lc.toNat ≤ e.la.toNat))
    (g : r.holds .none (e.la.toNat ^ e.lb.toNat % e.lc.toNat) 0 (bitlen e.lb.toNat)) :
    DeliveredModexp r e := by
  unfold DeliveredModexp; rwa [if_neg (toNat_pos_of_ne_zero h).ne', if_neg hr]

/-- A check-step error delivers zero results (rule R161). -/
theorem Block.fail_holds (b : Block n) (err : ErrCode) : (b.fail err).regs.holds err 0 0 0 :=
  ⟨rfl, by simp [Block.fail], by simp [Block.fail], by simp [Block.fail]⟩

theorem deliveredModexp_complete {b : Block n} (h : ExpLoopInv b.eng) (hb : b.eng.exp = 0) :
    DeliveredModexp (modexpLoopStep b).regs (modexpLoopStep b).eng := by
  have hp := h.power
  have hc := h.count
  rw [show b.eng.exp.toNat = 0 by simp [hb]] at hp hc
  rw [pow_zero, mul_one, Nat.mod_eq_of_lt h.acc] at hp
  rw [modexpLoopStep_done hb]
  exact deliveredModexp_of_power h.modulus (fun hr => absurd (h.range hr.1) (Nat.not_lt.2 hr.2))
    ⟨rfl, hp, by simp, hc⟩

theorem deliveredModexp_fail {b : Block n}
    (h : b.eng.lc = 0 ∨ (b.eng.rc = true ∧ b.eng.lc.toNat ≤ b.eng.la.toNat)) :
    DeliveredModexp (modexpCheck b).regs (modexpCheck b).eng ∧ (modexpCheck b).regs.done = true := by
  by_cases hl : b.eng.lc = 0
  · rw [modexpCheck_modulusZero hl]
    exact ⟨deliveredModexp_of_zero hl (b.fail_holds _), rfl⟩
  · obtain ⟨hr, hle⟩ := h.resolve_left hl
    rw [modexpCheck_outOfRange hl hr hle]
    exact ⟨deliveredModexp_of_range hl ⟨hr, hle⟩ (b.fail_holds _), rfl⟩

theorem deliveredModmul_of_zero {r : Regs n} {e : Engine n} (h : e.lc = 0)
    (g : r.holds .modulusZero 0 0 0) : DeliveredModmul r e := by
  unfold DeliveredModmul; rwa [if_pos (by simp [h])]

theorem deliveredModmul_of_product {r : Regs n} {e : Engine n} (h : e.lc ≠ 0)
    (g : r.holds .none (e.la.toNat * e.lb.toNat % e.lc.toNat) 0 1) : DeliveredModmul r e := by
  unfold DeliveredModmul; rwa [if_neg (toNat_pos_of_ne_zero h).ne']

theorem deliveredModmul (hn : 32 ≤ n) (b : Block n) :
    DeliveredModmul (modmulCheck b).regs (modmulCheck b).eng := by
  by_cases hl : b.eng.lc = 0
  · rw [modmulCheck_modulusZero hl]
    exact deliveredModmul_of_zero hl (b.fail_holds _)
  · rw [modmulCheck_multiply hl]
    exact deliveredModmul_of_product hl ⟨rfl, modmul_toNat _ _ hl, by simp, word_one_toNat hn⟩

/-! ### Any engine step -/

/-- What holds of a running engine: at `CHECK` the counter is 0, and each loop keeps its invariant. -/
structure EngineInv (e : Engine n) : Prop where
  check : e.fsm = .check → e.cnt = 0
  gcdLoop : e.fsm = .gcdLoop → GcdLoopInv e
  invLoop : e.fsm = .invLoop → InvLoopInv e
  expLoop : e.fsm = .expLoop → ExpLoopInv e

/-- An engine step keeps the loops' invariants or completes with what the latched command gives
(rules R103, R106, R123, R133, R144, R147). -/
theorem engineInv_step (hn : 32 ≤ n) {i : Instr} {b c : Block n} (hi : EngineInv b.eng)
    (h : blockStep i b = some c) (hd : b.eng.fsm = .check → decode b.eng.cmd = some i) :
    (c.eng.fsm ≠ .idle ∧ EngineInv c.eng) ∨
      (c.eng.fsm = .idle ∧ c.regs.done = true ∧ Delivered c.regs c.eng) := by
  cases i <;> simp only [blockStep, gcdBlock, invBlock, modexpBlock, modmulBlock] at h <;>
    split at h <;> cases h <;> rename_i hf
  · have g := gcdLoopInv_check (hd hf) (hi.check hf)
    exact .inl ⟨by simp [gcdCheck], ⟨by simp [gcdCheck], fun _ => g, by simp [gcdCheck], by simp [gcdCheck]⟩⟩
  · by_cases hb : b.eng.b = 0
    · have g := deliveredGcd_complete (hi.gcdLoop hf) hb
      refine .inr ⟨by rw [gcdLoopStep_done hb]; rfl, by rw [gcdLoopStep_done hb]; rfl, ?_⟩
      have hc : decode (gcdLoopStep b).eng.cmd = some .gcd := by
        rw [gcdLoopStep_done hb]; exact (hi.gcdLoop hf).cmd
      simpa only [Delivered, hc] using g
    · have g := gcdLoopInv_iterate hn (hi.gcdLoop hf) hb
      have hf' : (gcdLoopStep b).eng.fsm = .gcdLoop := by rw [gcdLoopStep_iterate hb]; exact hf
      exact .inl ⟨by simp [hf'], ⟨by simp [hf'], fun _ => g, by simp [hf'], by simp [hf']⟩⟩
  · have g := invLoopInv_check (hd hf) (hi.check hf)
    exact .inl ⟨by simp [invCheck], ⟨by simp [invCheck], by simp [invCheck], fun _ => g, by simp [invCheck]⟩⟩
  · by_cases hb : b.eng.b = 0
    · have g := deliveredInv_complete hn (hi.invLoop hf) hb
      refine .inr ⟨by rw [invLoopStep_done hb]; rfl, by rw [invLoopStep_done hb]; rfl, ?_⟩
      have hc : decode (invLoopStep b).eng.cmd = some .inv := by
        rw [invLoopStep_done hb]; exact (hi.invLoop hf).cmd
      simpa only [Delivered, hc] using g
    · have g := invLoopInv_iterate hn (hi.invLoop hf) hb
      have hf' : (invLoopStep b).eng.fsm = .invLoop := by rw [invLoopStep_iterate hb]; exact hf
      exact .inl ⟨by simp [hf'], ⟨by simp [hf'], by simp [hf'], fun _ => g, by simp [hf']⟩⟩
  · have hcm := hd hf
    by_cases hl : b.eng.lc = 0 ∨ (b.eng.rc = true ∧ b.eng.lc.toNat ≤ b.eng.la.toNat)
    · obtain ⟨g, hdone⟩ := deliveredModexp_fail hl
      obtain ⟨hidle, hcmd⟩ : (modexpCheck b).eng.fsm = .idle ∧ (modexpCheck b).eng.cmd = b.eng.cmd := by
        by_cases h0 : b.eng.lc = 0
        · rw [modexpCheck_modulusZero h0]; exact ⟨rfl, rfl⟩
        · have := hl.resolve_left h0
          rw [modexpCheck_outOfRange h0 this.1 this.2]; exact ⟨rfl, rfl⟩
      refine .inr ⟨hidle, hdone, ?_⟩
      rw [← hcmd] at hcm
      simpa only [Delivered, hcm] using g
    · rw [not_or] at hl
      have g := expLoopInv_check hn hcm (hi.check hf) hl.1 hl.2
      have hf' : (modexpCheck b).eng.fsm = .expLoop := by rw [modexpCheck_load hl.1 hl.2]
      exact .inl ⟨by simp [hf'], ⟨by simp [hf'], by simp [hf'], by simp [hf'], fun _ => g⟩⟩
  · by_cases hb : b.eng.exp = 0
    · have g := deliveredModexp_complete (hi.expLoop hf) hb
      refine .inr ⟨by rw [modexpLoopStep_done hb]; rfl, by rw [modexpLoopStep_done hb]; rfl, ?_⟩
      have hc : decode (modexpLoopStep b).eng.cmd = some .modexp := by
        rw [modexpLoopStep_done hb]; exact (hi.expLoop hf).cmd
      simpa only [Delivered, hc] using g
    · have g := expLoopInv_iterate hn (hi.expLoop hf) hb
      have hf' : (modexpLoopStep b).eng.fsm = .expLoop := by rw [modexpLoopStep_iterate hb]; exact hf
      exact .inl ⟨by simp [hf'], ⟨by simp [hf'], by simp [hf'], by simp [hf'], fun _ => g⟩⟩
  · have g := deliveredModmul hn b
    obtain ⟨hidle, hdone, hcmd⟩ : (modmulCheck b).eng.fsm = .idle ∧ (modmulCheck b).regs.done = true ∧
        (modmulCheck b).eng.cmd = b.eng.cmd := by
      by_cases h0 : b.eng.lc = 0
      · rw [modmulCheck_modulusZero h0]; exact ⟨rfl, rfl, rfl⟩
      · rw [modmulCheck_multiply h0]; exact ⟨rfl, rfl, rfl⟩
    have hcm := hd hf
    rw [← hcmd] at hcm
    exact .inr ⟨hidle, hdone, by simpa only [Delivered, hcm] using g⟩

/-- An illegal word's completion delivers `ILLEGAL_COMMAND` (rule R83). -/
theorem delivered_illegal {b : Block n} (hd : decode b.eng.cmd = none) :
    Delivered (b.fail .illegalCommand).regs (b.fail .illegalCommand).eng := by
  unfold Delivered
  rw [show decode (b.fail .illegalCommand).eng.cmd = none from hd]
  exact b.fail_holds _

/-- Engine steps left before the completing one, in a loop (rules R122, R134, R143). -/
def Engine.stepsLeft (e : Engine n) : Nat :=
  match e.fsm with
  | .gcdLoop | .invLoop => euclidIters e.a.toNat e.b.toNat
  | .expLoop => bitlen e.exp.toNat
  | .idle | .check => 0

/-- A loop step completes when none is left, and else uses one up (rule R107). -/
theorem stepsLeft_step {i : Instr} {b c : Block n} (h : blockStep i b = some c) (hf : b.eng.fsm ≠ .check) :
    (b.eng.stepsLeft = 0 ∧ c.eng.fsm = .idle ∧ c.regs.done = true) ∨
    (c.eng.fsm = b.eng.fsm ∧ b.eng.stepsLeft = c.eng.stepsLeft + 1) := by
  cases i <;> simp only [blockStep, gcdBlock, invBlock, modexpBlock, modmulBlock] at h <;>
    split at h <;> cases h <;> rename_i hf'
  · exact absurd hf' hf
  · by_cases hb : b.eng.b = 0
    · exact .inl ⟨by simp [Engine.stepsLeft, hf', hb], by rw [gcdLoopStep_done hb]; rfl,
        by rw [gcdLoopStep_done hb]; rfl⟩
    · refine .inr ⟨by rw [gcdLoopStep_iterate hb], ?_⟩
      rw [gcdLoopStep_iterate hb]
      simp only [Engine.stepsLeft, hf', BitVec.toNat_umod]
      exact euclidIters_of_ne_zero _ (toNat_pos_of_ne_zero hb).ne'
  · exact absurd hf' hf
  · by_cases hb : b.eng.b = 0
    · exact .inl ⟨by simp [Engine.stepsLeft, hf', hb], by rw [invLoopStep_done hb]; rfl,
        by rw [invLoopStep_done hb]; rfl⟩
    · refine .inr ⟨by rw [invLoopStep_iterate hb]; rfl, ?_⟩
      rw [invLoopStep_iterate hb]
      simp only [Engine.stepsLeft, invIterate, hf', inv_remainder]
      exact euclidIters_of_ne_zero _ (toNat_pos_of_ne_zero hb).ne'
  · exact absurd hf' hf
  · by_cases hb : b.eng.exp = 0
    · exact .inl ⟨by simp [Engine.stepsLeft, hf', hb], by rw [modexpLoopStep_done hb]; rfl,
        by rw [modexpLoopStep_done hb]; rfl⟩
    · refine .inr ⟨by rw [modexpLoopStep_iterate hb]; rfl, ?_⟩
      rw [modexpLoopStep_iterate hb]
      simp only [Engine.stepsLeft, modexpIterate, hf', BitVec.toNat_ushiftRight, Nat.shiftRight_eq_div_pow,
        pow_one]
      exact bitlen_half (toNat_pos_of_ne_zero hb).ne'
  · exact absurd hf' hf

end Sys2Proof.Machine
end

