-- ==== Sys2Proof/Laws/Names.lean ====
section
/-! SUPPORT. Bound names and labels. -/

namespace Sys2Proof.Machine

@[simp] theorem lookupName_nil (k : Nat) : lookupName k [] = none := rfl

/-- Every entry of the names after a binding is the new one or an old one. -/
theorem mem_bindName {k v : Nat} {names : List (Nat × Nat)} {p : Nat × Nat}
    (h : p ∈ bindName k v names) : p = (k, v) ∨ p ∈ names := by
  induction names with
  | nil => simpa [bindName] using h
  | cons q rest ih =>
    simp only [bindName] at h
    split at h
    · simpa using h
    · split at h
      · simp only [List.mem_cons] at h ⊢
        exact h.imp_right .inr
      · simp only [List.mem_cons] at h ⊢
        rcases h with h | h
        · exact .inr (.inl h)
        · exact (ih h).imp_right .inr

/-- A looked-up value is one of the bound ones. -/
theorem lookupName_mem {k v : Nat} {names : List (Nat × Nat)} (h : lookupName k names = some v) :
    (k, v) ∈ names := by
  induction names with
  | nil => simp at h
  | cons q rest ih =>
    simp only [lookupName] at h
    split at h
    · rename_i e; cases h; subst e; simp
    · exact List.mem_cons_of_mem _ (ih h)

/-- A candidate the host draws lies in the open range `(2, phi)`, where that is not empty (rule R92). -/
theorem hostCandidate_range (k : Nat) {phi : Nat} (n : Nat) (h : 3 < phi) :
    2 < hostCandidate k phi n ∧ hostCandidate k phi n < phi := by
  have := Nat.mod_lt (Config.hostDraw k) (show 0 < phi - 3 by omega)
  rw [hostCandidate, if_pos h]
  omega

/-- A candidate drawn below a value that a register holds is one too. -/
theorem hostCandidate_lt (k : Nat) {phi n : Nat} (h : phi < 2 ^ n) : hostCandidate k phi n < 2 ^ n := by
  by_cases hp : 3 < phi
  · exact (hostCandidate_range k n hp).2.trans h
  · rw [hostCandidate, if_neg hp]
    exact Nat.mod_lt _ (by positivity)

/-- A found label stands at the position found. -/
theorem findLabel_spec {l p : Nat} {script : List Stmt} (h : findLabel l script = some p) :
    script[p]? = some (.label l) := by
  induction script generalizing p with
  | nil => simp [findLabel] at h
  | cons st rest ih =>
    simp only [findLabel] at h
    split at h
    · rename_i e; cases h; simp [e]
    · simp only [Option.map_eq_some_iff] at h
      obtain ⟨q, hq, rfl⟩ := h
      simpa using ih hq

/-- A defined label is found. -/
theorem findLabel_isSome {l : Nat} {script : List Stmt} (h : Stmt.label l ∈ script) :
    (findLabel l script).isSome = true := by
  induction script with
  | nil => simp at h
  | cons st rest ih =>
    simp only [findLabel]
    split
    · rfl
    · rename_i hne
      rcases List.mem_cons.1 h with h | h
      · exact absurd h.symm hne
      · simpa using ih h

end Sys2Proof.Machine
end

