-- ==== Sys2Proof/Laws/PerInstr.lean ====
section
/-! SUPPORT. Statements made for every command of the opcode table, one lemma per constructor. -/

namespace Sys2Proof.Laws.TableWord

/-- A command's word at the table's width is its row's match value, and its `MBZ` bits are zero
(rules R80, R82). -/
def Statement (i : Instr) : Prop :=
  (encode 32 i).toNat = (match i with
    | .gcd => 0x00000001
    | .inv => 0x00000002
    | .modexp => 0x00000003
    | .modmul => 0x00000004) ∧ mbzField (encode 32 i) = 0 ∧ i.wf = true

theorem gcd : Statement .gcd := by unfold Statement; decide
theorem inv : Statement .inv := by unfold Statement; decide
theorem modexp : Statement .modexp := by unfold Statement; decide
theorem modmul : Statement .modmul := by unfold Statement; decide

end Sys2Proof.Laws.TableWord
end

