-- ==== Sys2Proof/Laws/Port.lean ====
section
/-! SUPPORT. The port, index by index. -/

namespace Sys2Proof.Machine

variable {n : Nat}

@[simp] theorem Reg.ofIdx_idx (r : Reg) : Reg.ofIdx r.idx = r := by
  cases r with
  | reserved k => revert k; decide
  | _ => rfl

theorem Reg.idx_ofIdx (i : BitVec 4) : (Reg.ofIdx i).idx = i := by revert i; decide

/-- The port at a register's index is the register (rules R20, R60). -/
@[simp] theorem portRead_idx (b : Block n) (r : Reg) : portRead b r.idx = b.readReg r := by
  simp [portRead]

@[simp] theorem portWrite_idx (b : Block n) (r : Reg) (v : Word n) :
    portWrite b r.idx v = b.writeReg v r := by simp [portWrite]

@[simp] theorem portRead_0 (b : Block n) : portRead b 0x0#4 = BitVec.ofNat n Config.idValue := rfl
@[simp] theorem portRead_1 (b : Block n) : portRead b 0x1#4 = paramWord n := rfl
@[simp] theorem portRead_2 (b : Block n) : portRead b 0x2#4 = b.ctrlWord := rfl
@[simp] theorem portRead_3 (b : Block n) : portRead b 0x3#4 = b.statusWord := rfl
@[simp] theorem portRead_4 (b : Block n) : portRead b 0x4#4 = 0 := rfl
@[simp] theorem portRead_5 (b : Block n) : portRead b 0x5#4 = b.regs.opa := rfl
@[simp] theorem portRead_6 (b : Block n) : portRead b 0x6#4 = b.regs.opb := rfl
@[simp] theorem portRead_7 (b : Block n) : portRead b 0x7#4 = b.regs.opc := rfl
@[simp] theorem portRead_8 (b : Block n) : portRead b 0x8#4 = b.regs.result := rfl
@[simp] theorem portRead_9 (b : Block n) : portRead b 0x9#4 = b.regs.aux := rfl
@[simp] theorem portRead_10 (b : Block n) : portRead b 0xA#4 = b.regs.iter := rfl

@[simp] theorem portWrite_2 (b : Block n) (v) : portWrite b 0x2#4 v = b.writeCtrl v := rfl
@[simp] theorem portWrite_3 (b : Block n) (v) :
    portWrite b 0x3#4 v = { b with regs := b.regs.writeStatus v } := rfl
@[simp] theorem portWrite_4 (b : Block n) (v) : portWrite b 0x4#4 v = b.writeCmd v := rfl
@[simp] theorem portWrite_5 (b : Block n) (v) :
    portWrite b 0x5#4 v = { b with regs := { b.regs with opa := v } } := rfl
@[simp] theorem portWrite_6 (b : Block n) (v) :
    portWrite b 0x6#4 v = { b with regs := { b.regs with opb := v } } := rfl
@[simp] theorem portWrite_7 (b : Block n) (v) :
    portWrite b 0x7#4 v = { b with regs := { b.regs with opc := v } } := rfl

/-- What a port write can do to a block: a soft reset, an acceptance, or a change of the register file
alone that leaves the completion registers (rules R21, R28, R33, R35, R100, R101). -/
theorem Block.writeReg_cases (b : Block n) (v : Word n) (r : Reg) :
    (r = .ctrl ∧ v.getLsbD 2 = true ∧ b.writeReg v r = Block.reset n) ∨
    (r = .cmd ∧ b.eng.fsm = .idle ∧ b.writeReg v r = b.accept v) ∨
    ((b.writeReg v r).eng = b.eng ∧
      (b.writeReg v r).regs.result = b.regs.result ∧ (b.writeReg v r).regs.aux = b.regs.aux ∧
      (b.writeReg v r).regs.iter = b.regs.iter ∧ (b.writeReg v r).regs.err = b.regs.err ∧
      ((b.writeReg v r).regs.done = true → b.regs.done = true)) := by
  cases r with
  | ctrl =>
    by_cases h : v.getLsbD 2 = true
    · exact .inl ⟨rfl, h, by simp [Block.writeReg, Block.writeCtrl, h, Block.softReset]⟩
    · exact .inr (.inr (by simp [Block.writeReg, Block.writeCtrl, h, Regs.writeCtrl]))
  | cmd =>
    rcases b.writeCmd_cases v with ⟨h, e⟩ | ⟨h, e⟩
    · exact .inr (.inl ⟨rfl, h, e⟩)
    · exact .inr (.inr (by simp only [Block.writeReg, e]; simp [Block.drop]))
  | status =>
    exact .inr (.inr (by simp [Block.writeReg, Regs.writeStatus]; exact fun h _ => h))
  | _ => exact .inr (.inr (by simp [Block.writeReg]))

/-- What a port write can do to `OVR` (rules R28, R31, R33, R101). -/
theorem Block.writeReg_ovr (b : Block n) (v : Word n) (r : Reg) :
    (b.writeReg v r).regs.ovr = b.regs.ovr ∨
    (r = .cmd ∧ b.eng.fsm ≠ .idle ∧ (b.writeReg v r).regs.ovr = true) ∨
    (r = .status ∧ v.getLsbD 2 = true ∧ (b.writeReg v r).regs.ovr = false) ∨
    b.writeReg v r = Block.reset n := by
  cases r with
  | ctrl =>
    by_cases h : v.getLsbD 2 = true
    · exact .inr (.inr (.inr (by simp [Block.writeReg, Block.writeCtrl, h, Block.softReset])))
    · exact .inl (by simp [Block.writeReg, Block.writeCtrl, h, Regs.writeCtrl])
  | cmd =>
    rcases b.writeCmd_cases v with ⟨h, e⟩ | ⟨h, e⟩
    · exact .inl (by simp only [Block.writeReg, e]; rfl)
    · exact .inr (.inl ⟨rfl, h, by simp only [Block.writeReg, e]; rfl⟩)
  | status =>
    by_cases h : v.getLsbD 2 = true
    · exact .inr (.inr (.inl ⟨rfl, h, by simp [Block.writeReg, Regs.writeStatus, h]⟩))
    · exact .inl (by simp [Block.writeReg, Regs.writeStatus, h])
  | _ => exact .inl rfl

/-- What a port write can do to `DONE` (rules R28, R30, R33, R100). -/
theorem Block.writeReg_done (b : Block n) (v : Word n) (r : Reg) :
    (b.writeReg v r).regs.done = b.regs.done ∨
    (r = .cmd ∧ b.eng.fsm = .idle ∧ (b.writeReg v r).regs.done = false) ∨
    (r = .status ∧ v.getLsbD 1 = true ∧ (b.writeReg v r).regs.done = false) ∨
    b.writeReg v r = Block.reset n := by
  cases r with
  | ctrl =>
    by_cases h : v.getLsbD 2 = true
    · exact .inr (.inr (.inr (by simp [Block.writeReg, Block.writeCtrl, h, Block.softReset])))
    · exact .inl (by simp [Block.writeReg, Block.writeCtrl, h, Regs.writeCtrl])
  | cmd =>
    rcases b.writeCmd_cases v with ⟨h, e⟩ | ⟨h, e⟩
    · exact .inr (.inl ⟨rfl, h, by simp only [Block.writeReg, e]; rfl⟩)
    · exact .inl (by simp only [Block.writeReg, e]; rfl)
  | status =>
    by_cases h : v.getLsbD 1 = true
    · exact .inr (.inr (.inl ⟨rfl, h, by simp [Block.writeReg, Regs.writeStatus, h]⟩))
    · exact .inl (by simp [Block.writeReg, Regs.writeStatus, h])
  | _ => exact .inl rfl

/-- What a port write can do to a block, by index. -/
theorem portWrite_cases (b : Block n) (idx : BitVec 4) (v : Word n) :
    (idx = 0x2#4 ∧ v.getLsbD 2 = true ∧ portWrite b idx v = Block.reset n) ∨
    (idx = 0x4#4 ∧ b.eng.fsm = .idle ∧ portWrite b idx v = b.accept v) ∨
    ((portWrite b idx v).eng = b.eng ∧
      (portWrite b idx v).regs.result = b.regs.result ∧ (portWrite b idx v).regs.aux = b.regs.aux ∧
      (portWrite b idx v).regs.iter = b.regs.iter ∧ (portWrite b idx v).regs.err = b.regs.err ∧
      ((portWrite b idx v).regs.done = true → b.regs.done = true)) := by
  have hi := Reg.idx_ofIdx idx
  rcases b.writeReg_cases v (Reg.ofIdx idx) with ⟨e, h⟩ | ⟨e, h⟩ | h
  · exact .inl ⟨by rw [← hi, e]; rfl, h⟩
  · exact .inr (.inl ⟨by rw [← hi, e]; rfl, h⟩)
  · exact .inr (.inr h)

end Sys2Proof.Machine
end

