-- ==== Sys2Proof/Laws/Step.lean ====
section
/-! SUPPORT. What a step can do: whose turn it is, and what each turn leaves. A step never changes the
width, so what it does is said of the machine at that width. -/

namespace Sys2Proof.Machine

variable {n : Nat}

@[simp] theorem Mach.turnUsed_blk (m : Mach n) : m.turnUsed.blk = m.blk := rfl
@[simp] theorem Mach.turnUsed_resetIn (m : Mach n) : m.turnUsed.resetIn = m.resetIn := rfl
@[simp] theorem Mach.turnUsed_host (m : Mach n) : m.turnUsed.host = m.host := rfl

/-- A turn known to come next comes next, and the ones after it stay known. -/
theorem Mach.upcoming_of_cons {m : Mach n} {t ts} (h : m.sched = t :: ts) : m.upcoming = (t, ts) := by
  simp [Mach.upcoming, h]

theorem Mach.turnUsed_of_cons {m : Mach n} {t ts} (h : m.sched = t :: ts) :
    m.turnUsed = { m with sched := ts } := by
  simp [Mach.turnUsed, Mach.upcoming_of_cons h, h]

/-- When no turn is known, a move that is due comes within finitely many turns (rule R108). -/
theorem Mach.turnUsed_of_nil {m : Mach n} (h : m.sched = []) :
    (m.upcoming.1 = .due ∧ m.turnUsed.sched = []) ∨ ∃ ts, m.turnUsed.sched = ts ++ [.due] := by
  simp only [Mach.turnUsed, Mach.upcoming, h]
  cases Config.turnsBefore m.parts with
  | nil => exact .inl ⟨rfl, rfl⟩
  | cons t ts => exact .inr ⟨ts, rfl⟩

@[simp] theorem Mach.turnUsed_engineIsDue (m : Mach n) : m.turnUsed.engineIsDue = m.engineIsDue := rfl

/-- The engine's turn at a width. -/
def engineTurnM (m : Mach n) : Host.Outcome (Mach n) Fault Refusal :=
  match m.blk.eng.fsm with
  | .idle => .next m
  | .check =>
    match decode m.blk.eng.cmd with
    | some i =>
      match blockStep i m.blk with
      | some b => .next (m.setBlk b)
      | none => .refused .engineStepNotEnabled
    | none => .next (m.setBlk (m.blk.fail .illegalCommand))
  | .gcdLoop => .next (m.setBlk (gcdLoopStep m.blk))
  | .invLoop => .next (m.setBlk (invLoopStep m.blk))
  | .expLoop => .next (m.setBlk (modexpLoopStep m.blk))

/-- A turn at a width. -/
def turnM (t : Turn) (m : Mach n) : Host.Outcome (Mach n) Fault Refusal :=
  match t with
  | .host => hostTurn m
  | .engine => if m.resetIn then .next m else engineTurnM m
  | .assertReset => .next (assertReset m)
  | .releaseReset => .next (releaseReset m)
  | .due => if m.engineIsDue then (if m.resetIn then .next m else engineTurnM m) else hostTurn m

/-- A step at a width. -/
def stepM (m : Mach n) : Host.Outcome (Mach n) Fault Refusal := turnM m.mover m.turnUsed

theorem engineTurn_eq (w : OpWidth) (m : Mach w.bits) :
    engineTurn ⟨w, m⟩ = liftOutcome w (engineTurnM m) := by
  simp only [engineTurn, engineTurnM]
  cases hf : m.blk.eng.fsm <;> simp only
  · rfl
  · cases hd : decode m.blk.eng.cmd with
    | none => rfl
    | some i => simp only [exec_eq]; cases blockStep i m.blk <;> rfl
  · simp [exec, execGcd, gcdBlock, hf, engineOutcome]
  · simp [exec, execInv, invBlock, hf, engineOutcome]
  · simp [exec, execModexp, modexpBlock, hf, engineOutcome]

theorem turn_eq (t : Turn) (w : OpWidth) (m : Mach w.bits) :
    turn t ⟨w, m⟩ = liftOutcome w (turnM t m) := by
  have he : engineMove ⟨w, m⟩ = liftOutcome w (if m.resetIn then .next m else engineTurnM m) := by
    simp only [engineMove, engineTurn_eq]; split <;> rfl
  cases t <;> simp only [turn, turnM, hostMove, he, liftOutcome_next]
  cases m.engineIsDue <;> rfl

/-- A step is the next turn with the turn used up, at the machine's width (rules R68, R102). -/
theorem step_eq (w : OpWidth) (m : Mach w.bits) : step ⟨w, m⟩ = liftOutcome w (stepM m) := by
  rw [stepM, step, turn_eq]
  simp only [Mach.mover]
  cases m.upcoming.1 <;> simp only [turnM, Mach.turnUsed_engineIsDue]
  by_cases h : m.engineIsDue = true <;> simp only [h, ↓reduceIte, Bool.false_eq_true]

theorem step_next_iff (w : OpWidth) (m m' : Mach w.bits) :
    step ⟨w, m⟩ = .next ⟨w, m'⟩ ↔ stepM m = .next m' := by
  rw [step_eq, liftOutcome_next_iff]; simp [eq_comm]

/-- `k` steps at a width. -/
def stepsM : Nat → Mach n → Host.Outcome (Mach n) Fault Refusal
  | 0, m => .next m
  | k + 1, m =>
    match stepM m with
    | .next m' => stepsM k m'
    | .fault f => .fault f
    | .refused r => .refused r

theorem steps_eq (k : Nat) (w : OpWidth) (m : Mach w.bits) :
    steps k ⟨w, m⟩ = liftOutcome w (stepsM k m) := by
  induction k generalizing m with
  | zero => rfl
  | succ k ih =>
    simp only [steps, stepsM, step_eq]
    cases stepM m <;> simp [ih]

theorem steps_next_iff (k : Nat) (w : OpWidth) (m m' : Mach w.bits) :
    steps k ⟨w, m⟩ = .next ⟨w, m'⟩ ↔ stepsM k m = .next m' := by
  rw [steps_eq, liftOutcome_next_iff]; simp [eq_comm]

theorem Mach.mover_ne_due (m : Mach n) : m.mover ≠ .due := by
  simp only [Mach.mover]; split <;> try split
  all_goals simp

/-- Who moves next when the next turn is known. -/
theorem Mach.mover_of_cons {m : Mach n} {t ts} (h : m.sched = t :: ts) (ht : t ≠ .due) : m.mover = t := by
  simp only [Mach.mover, Mach.upcoming_of_cons h]
  cases t <;> simp_all

/-- A due turn is the engine's while a command runs (rule R108). -/
theorem Mach.mover_of_due_busy {m : Mach n} (h : m.upcoming.1 = .due) (hf : m.blk.eng.fsm ≠ .idle) :
    m.mover = .engine := by simp [Mach.mover, h, Mach.engineIsDue, Block.busy, hf]

/-- A due turn is the host's while no command runs and no reset is on. -/
theorem Mach.mover_of_due_idle {m : Mach n} (h : m.upcoming.1 = .due) (hr : m.resetIn = false)
    (hf : m.blk.eng.fsm = .idle) : m.mover = .host := by
  simp [Mach.mover, h, Mach.engineIsDue, Block.busy, hf, hr]

/-- On the engine's turn a step is the engine's (rules R68, R103). -/
theorem stepM_of_engineIsNext {m : Mach n} (h : m.engineIsNext) : stepM m = engineTurnM m.turnUsed := by
  rw [stepM, h.2.2]
  simp [turnM, h.1]

/-- On the host's turn a step is the host's (rules R68, R88). -/
theorem stepM_of_hostIsNext {m : Mach n} (h : m.hostIsNext) : stepM m = hostTurn m.turnUsed := by
  rw [stepM, show m.mover = .host from h]; rfl

/-- On the engine's turn a step of the machine is the engine's (rules R68, R103). -/
theorem step_of_engineIsNext (w : OpWidth) {m : Mach w.bits} (h : m.engineIsNext) :
    step ⟨w, m⟩ = engineTurn ⟨w, m.turnUsed⟩ := by
  rw [step_eq, stepM_of_engineIsNext h, engineTurn_eq]

/-- On the host's turn a step of the machine is the host's (rules R68, R88). -/
theorem step_of_hostIsNext (w : OpWidth) {m : Mach w.bits} (h : m.hostIsNext) :
    step ⟨w, m⟩ = liftOutcome w (hostTurn m.turnUsed) := by
  rw [step_eq, stepM_of_hostIsNext h]

theorem engineTurnM_check {m : Mach n} {i : Instr} (hf : m.blk.eng.fsm = .check)
    (hd : decode m.blk.eng.cmd = some i) :
    ∃ b, blockStep i m.blk = some b ∧ engineTurnM m = .next (m.setBlk b) := by
  obtain ⟨b, hb⟩ := Option.isSome_iff_exists.1 ((blockStep_isSome_iff i m.blk).2 (.inl hf))
  exact ⟨b, hb, by simp [engineTurnM, hf, hd, hb]⟩

theorem engineTurnM_illegal {m : Mach n} (hf : m.blk.eng.fsm = .check)
    (hd : decode m.blk.eng.cmd = none) :
    engineTurnM m = .next (m.setBlk (m.blk.fail .illegalCommand)) := by simp [engineTurnM, hf, hd]

/-- What the engine's turn can do: nothing when the engine is idle, else complete a command or change the
engine alone and stay busy; it never faults and never refuses (rules R103, R104). -/
theorem engineTurnM_cases (m : Mach n) :
    (m.blk.eng.fsm = .idle ∧ engineTurnM m = .next m) ∨
    (m.blk.eng.fsm ≠ .idle ∧ ∃ b, engineTurnM m = .next (m.setBlk b) ∧
      ((∃ i, blockStep i m.blk = some b ∧
          (m.blk.eng.fsm = .check → decode m.blk.eng.cmd = some i)) ∨
        (m.blk.eng.fsm = .check ∧ decode m.blk.eng.cmd = none ∧ b = m.blk.fail .illegalCommand))) := by
  cases hf : m.blk.eng.fsm with
  | idle => exact .inl ⟨rfl, by simp [engineTurnM, hf]⟩
  | check =>
    refine .inr ⟨by simp, ?_⟩
    cases hd : decode m.blk.eng.cmd with
    | none => exact ⟨_, engineTurnM_illegal hf hd, .inr ⟨rfl, rfl, rfl⟩⟩
    | some i =>
      obtain ⟨b, hb, he⟩ := engineTurnM_check hf hd
      exact ⟨b, he, .inl ⟨i, hb, fun _ => rfl⟩⟩
  | gcdLoop =>
    exact .inr ⟨by simp, _, by simp only [engineTurnM, hf], .inl ⟨.gcd, gcdBlock_loop hf, by simp⟩⟩
  | invLoop =>
    exact .inr ⟨by simp, _, by simp only [engineTurnM, hf], .inl ⟨.inv, invBlock_loop hf, by simp⟩⟩
  | expLoop =>
    exact .inr ⟨by simp, _, by simp only [engineTurnM, hf],
      .inl ⟨.modexp, modexpBlock_loop hf, by simp⟩⟩

/-- What the host's turn can do when it goes on: one port write of a register, or a change of the host
agent alone (rules R60, R88). -/
theorem hostTurn_next {m t : Mach n} (h : hostTurn m = .next t) :
    (∃ r v x, m.host.script[m.host.pos]? = some (.wr r v) ∧ v.eval m.host.names = some x ∧
      m.resetIn = false ∧ x < 2 ^ n ∧ t = (m.setBlk (m.blk.writeReg (BitVec.ofNat n x) r)).advance) ∨
    (∃ a, t = { m with host := a }) := by
  simp only [hostTurn] at h
  split at h
  · cases h; exact .inr ⟨_, rfl⟩
  · rename_i r v hst
    simp only [Mach.portTurn, hostWr] at h
    split at h
    · cases h
    · split at h
      · cases h
      · split at h
        · cases h
          exact .inl ⟨r, v, _, hst, by assumption, by simp_all, by assumption, by simp⟩
        · cases h
  · simp only [Mach.portTurn, hostRd] at h
    split at h <;> cases h
    exact .inr ⟨_, rfl⟩
  · simp only [Mach.portTurn, hostPoll] at h
    split at h
    · cases h
    · split at h
      · cases h
      · split at h <;> cases h <;> exact .inr ⟨_, rfl⟩
  · cases h; exact .inr ⟨_, rfl⟩
  · simp only [hostIfGoto] at h
    split at h
    · cases h
    · cases h; exact .inr ⟨_, rfl⟩
    · split at h <;> cases h
      exact .inr ⟨_, rfl⟩
  · simp only [hostDraw] at h
    split at h
    · cases h
    · split at h <;> cases h
      exact .inr ⟨_, rfl⟩

/-- Everything a step can do when it goes on: an engine step, a port write of the host, a change of the
host agent alone, a turn that passes, or an edge of the reset input (rules R68, R102, R190). -/
theorem stepM_cases {m t : Mach n} (h : stepM m = .next t) :
    (m.engineIsNext ∧ ∃ b, t = m.turnUsed.setBlk b ∧
      ((∃ i, blockStep i m.blk = some b ∧
          (m.blk.eng.fsm = .check → decode m.blk.eng.cmd = some i)) ∨
        (m.blk.eng.fsm = .check ∧ decode m.blk.eng.cmd = none ∧ b = m.blk.fail .illegalCommand))) ∨
    (m.hostIsNext ∧ m.resetIn = false ∧ ∃ r v x, m.host.script[m.host.pos]? = some (.wr r v) ∧
      v.eval m.host.names = some x ∧ x < 2 ^ n ∧
      t = (m.turnUsed.setBlk (m.blk.writeReg (BitVec.ofNat n x) r)).advance) ∨
    (m.hostIsNext ∧ hostTurn m.turnUsed = .next t ∧ ∃ a, t = { m.turnUsed with host := a }) ∨
    (m.mover = .engine ∧ t = m.turnUsed) ∨ (m.mover = .assertReset ∧ t = assertReset m.turnUsed) ∨
    (m.mover = .releaseReset ∧ t = releaseReset m.turnUsed) := by
  cases ht : m.mover with
  | due => exact absurd ht m.mover_ne_due
  | host =>
    have hh : m.hostIsNext := ht
    rw [stepM_of_hostIsNext hh] at h
    rcases hostTurn_next h with ⟨r, v, x, h1, h2, h3, h4, h5⟩ | ⟨a, ha⟩
    · exact .inr (.inl ⟨hh, h3, r, v, x, h1, h2, h4, h5⟩)
    · exact .inr (.inr (.inl ⟨hh, h, a, ha⟩))
  | engine =>
    simp only [stepM, ht, turnM, Mach.turnUsed_resetIn] at h
    cases hr : m.resetIn <;> simp only [hr] at h
    · rcases engineTurnM_cases m.turnUsed with ⟨_, e⟩ | ⟨h1, b, e, h2⟩
      · simp only [e] at h; cases h; exact .inr (.inr (.inr (.inl ⟨rfl, rfl⟩)))
      · simp only [e] at h; cases h; exact .inl ⟨⟨hr, h1, ht⟩, b, rfl, h2⟩
    · cases h; exact .inr (.inr (.inr (.inl ⟨rfl, rfl⟩)))
  | assertReset =>
    simp only [stepM, ht, turnM] at h; cases h; exact .inr (.inr (.inr (.inr (.inl ⟨rfl, rfl⟩))))
  | releaseReset =>
    simp only [stepM, ht, turnM] at h; cases h; exact .inr (.inr (.inr (.inr (.inr ⟨rfl, rfl⟩))))

end Sys2Proof.Machine
end

