-- ==== Sys2Proof/Tests/Slice0.lean ====
section
/-! SUPPORT. The model's own tests: ill-formed terms that the checks refuse, command words written out from
the encoding, one engine step of each command on values of spec/95_test_vectors.md, and, for every
statement with hypotheses, a concrete state that meets them. -/

namespace Sys2Proof.Tests

open Sys2Proof Sys2Proof.Machine

/-! ### Small machines at `OPW = 32` -/

def w0 : OpWidth := ⟨0⟩
def wd (v : Nat) : Word w0.bits := BitVec.ofNat _ v

/-- An engine at a sequencing state, with a latched command word and operands. -/
def engAt (f : Fsm) (cmd la lb lc : Nat) : Engine w0.bits :=
  { Engine.reset _ with fsm := f, cmd := wd cmd, la := wd la, lb := wd lb, lc := wd lc }

def blkAt (e : Engine w0.bits) : Block w0.bits := ⟨Regs.reset _, e⟩

/-- A machine whose next turn is the one that is due. -/
def machAt (e : Engine w0.bits) : Mach w0.bits :=
  { Mach.reset w0.bits with blk := blkAt e, sched := [.due] }

/-- A machine whose host is at the start of a script, with names bound. -/
def hostAt (e : Engine w0.bits) (script : List Stmt) (names : List (Nat × Nat)) : Mach w0.bits :=
  { machAt e with host := ⟨script, 0, names, 0⟩ }

/-- A reading of the block after an outcome, where the machine goes on. -/
def after {α : Type} (f : {n : Nat} → Block n → α) (o : Host.Outcome State Fault Refusal) : Option α :=
  match o with
  | .next t => some (f t.mach.blk)
  | .fault _ | .refused _ => none

def pair {n : Nat} (b : Block n) : Nat × Nat := (b.eng.a.toNat, b.eng.b.toNat)
def coeffs {n : Nat} (b : Block n) : Int × Int := (b.eng.x0, b.eng.x1)
def powers {n : Nat} (b : Block n) : Nat × Nat × Nat := (b.eng.acc.toNat, b.eng.base.toNat, b.eng.exp.toNat)
def results {n : Nat} (b : Block n) : Nat × Nat × Nat × ErrCode :=
  (b.regs.result.toNat, b.regs.aux.toNat, b.regs.iter.toNat, b.regs.err)

/-! ### Well-formedness: an ill-formed term for each check

`Instr.wf` checks the opcode's range only, and no command fails it: a command has no operand field. -/

theorem test_wf_commands : [Instr.gcd, .inv, .modexp, .modmul].all Instr.wf = true := by decide
theorem test_wf_word_opcode_zero : legalWord (wd 0) = false := by decide
theorem test_wf_word_opcode_reserved : legalWord (wd 5) = false := by decide
theorem test_wf_word_mbz_set : legalWord (wd 0x11) = false := by decide
theorem test_wf_value_too_wide : HostVal.wf w0 [] (.num (2 ^ 32)) = false := by decide
theorem test_wf_value_unbound : HostVal.wf w0 [1] (.name 0) = false := by decide
theorem test_wf_wr_unbound : scriptWf w0 [.wr .opa (.name 0)] = false := by decide
theorem test_wf_poll_too_wide : scriptWf w0 [.poll .statusDone (.num (2 ^ 32))] = false := by decide
theorem test_wf_if_unbound : scriptWf w0 [.label 0, .ifGoto ⟨0, none, true, 1⟩ 0] = false := by decide
theorem test_wf_if_label : scriptWf w0 [.rd .status 0, .ifGoto ⟨0, none, true, 1⟩ 0] = false := by decide
theorem test_wf_if_field :
    scriptWf w0 [.rd .status 0, .label 0, .ifGoto ⟨0, some .paramOpw, true, 1⟩ 0] = false := by decide
theorem test_wf_label_twice : scriptWf w0 [.label 0, .label 0] = false := by decide
theorem test_wf_draw_unbound : scriptWf w0 [.draw 0 (.name 1)] = false := by decide
theorem test_wf_good_script :
    scriptWf w0 [.label 0, .rd .status 0, .ifGoto ⟨0, some .statusErr, false, 0⟩ 0, .wr .opa (.name 0)]
      = true := by decide
theorem test_wf_key_pair : scriptWf w0 (deriveKeyPair 0 1 2 3 4 5 6 977 1013) = true := by decide

/-! ### `PARAM` at the widths where the formulas of rules R20 and R193 fit it, and beyond (log entry 2) -/

theorem test_param_reference : (paramWord 32).toNat = 0x00010020 := by decide
theorem test_param_opw_field_wide : (paramOpwField 65536).toNat = 0 ∧ (paramOpwField 131104).toNat = 32 := by decide
/-- At `OPW = 65536`, `PARAM` is `0x00010000` (rule R20's formula, ruling D6). -/
theorem test_param_wide : (paramWord 65536).toNat = 0x00010000 := by
  rw [paramWord_toNat (by decide)]

/-! ### Decoding: every constructor by its word, bit by bit (rules R80, R82, R83) -/

theorem test_decode_gcd : decode 0b00000000000000000000000000000001#32 = some .gcd := by decide
theorem test_decode_inv : decode 0b00000000000000000000000000000010#32 = some .inv := by decide
theorem test_decode_modexp : decode 0b00000000000000000000000000000011#32 = some .modexp := by decide
theorem test_decode_modmul : decode 0b00000000000000000000000000000100#32 = some .modmul := by decide
theorem test_decode_reserved :
    ([0x0, 0x5, 0x6, 0x7, 0x8, 0x9, 0xA, 0xB, 0xC, 0xD, 0xE, 0xF].all fun v =>
      (decode (wd v)).isNone) = true := by decide
theorem test_decode_mbz :
    ([0x10, 0x11, 0x12, 0x103, 0x80000004, 0xFFFFFFF1].all fun v => (decode (wd v)).isNone) = true := by
  decide
theorem test_decode_mbz_above_32 : decode 0x0000000100000001#64 = none := by decide
theorem test_encode_words :
    ([Instr.gcd, .inv, .modexp, .modmul].map fun i => (encode 32 i).toNat) = [1, 2, 3, 4] := by decide
theorem test_decodeTableWord :
    [decodeTableWord 32 1, decodeTableWord 32 2, decodeTableWord 32 3, decodeTableWord 32 4,
      decodeTableWord 32 5, decodeTableWord 32 0x11] =
      [some .gcd, some .inv, some .modexp, some .modmul, none, none] := by decide

/-! ### The first instruction after reset -/

theorem test_fetch_gcd : step (State.reset.withFetchWord 32 1) =
    exec .gcd ⟨_, (State.reset.withFetchWord 32 1).mach.turnUsed⟩ := rfl
theorem test_fetch_modmul : step (State.reset.withFetchWord 32 4) =
    exec .modmul ⟨_, (State.reset.withFetchWord 32 4).mach.turnUsed⟩ := rfl
theorem test_fetch_illegal :
    after results (step (State.reset.withFetchWord 32 5)) = some (0, 0, 0, .illegalCommand) := by decide
theorem test_reset_registers :
    ((List.range 16).map fun k => (portRead State.reset.mach.blk (BitVec.ofNat 4 k)).toNat) =
      [0x47434445, 0x00010020, 0, 0, 0, 0, 0, 0, 0, 0, 0, 0, 0, 0, 0, 0] := by decide

/-! ### One engine step of each command (spec/95_test_vectors.md, rules R138, R146) -/

/-- V-GCD-13: iteration 2 of (1071, 462). -/
def gcdMid : Engine w0.bits := { engAt .gcdLoop 1 1071 462 0 with a := wd 462, b := wd 147, cnt := 1 }
theorem test_gcd_iterates : after pair (exec .gcd ⟨w0, machAt gcdMid⟩) = some (147, 21) := by decide
/-- V-GCD-13: the completing step. -/
def gcdEnd : Engine w0.bits := { engAt .gcdLoop 1 1071 462 0 with a := wd 21, b := 0, cnt := 3 }
theorem test_gcd_completes :
    after results (exec .gcd ⟨w0, machAt gcdEnd⟩) = some (21, 0, 3, .none) := by decide

/-- Rule R138: iteration 2 of (17, 986040). -/
def invMid : Engine w0.bits :=
  { engAt .invLoop 2 17 986040 0 with a := wd 17, b := wd 6, x0 := 1, x1 := -58002, cnt := 1 }
theorem test_inv_iterates :
    after coeffs (exec .inv ⟨w0, machAt invMid⟩) = some (-58002, 116005) := by decide
/-- Rule R138: the completing step; `-174007 + 986040 = 812033`. -/
def invEnd : Engine w0.bits :=
  { engAt .invLoop 2 17 986040 0 with a := 1, b := 0, x0 := -174007, x1 := 986040, cnt := 4 }
theorem test_inv_completes :
    after results (exec .inv ⟨w0, machAt invEnd⟩) = some (812033, 1, 4, .none) := by decide

/-- Rule R146: iteration 1 of 20003^17 mod 988027 multiplies by the old base. -/
def expMid : Engine w0.bits :=
  { engAt .expLoop 3 20003 17 988027 with acc := 1, base := wd 20003, exp := wd 17 }
theorem test_modexp_iterates :
    after powers (exec .modexp ⟨w0, machAt expMid⟩) = some (20003, 957101, 8) := by decide
/-- Rule R145: the range check, `x = n`. -/
def expRange : Engine w0.bits := { engAt .check 3 988027 17 988027 with rc := true }
theorem test_modexp_range :
    after results (exec .modexp ⟨w0, machAt expRange⟩) = some (0, 0, 0, .messageOutOfRange) := by decide

/-- V-MUL-9: `M·M mod (M − 1) = 1`, with the product not truncated. -/
theorem test_modmul_wide :
    after results (exec .modmul ⟨w0, machAt (engAt .check 4 0xFFFFFFFF 0xFFFFFFFF 0xFFFFFFFE)⟩) =
    some (1, 0, 1, .none) := by decide
/-- V-MUL-4: modulus 0. -/
theorem test_modmul_zero : after results (exec .modmul ⟨w0, machAt (engAt .check 4 5 5 0)⟩) =
    some (0, 0, 0, .modulusZero) := by decide

/-! ### The engine's turn: witnesses for the statements about steps -/

def checkM (cmd la lb lc : Nat) : Mach w0.bits := machAt (engAt .check cmd la lb lc)
def gcdM : Mach w0.bits := machAt gcdMid
def gcdEndM : Mach w0.bits := machAt gcdEnd
def invM : Mach w0.bits := machAt invMid
def invEndM : Mach w0.bits := machAt invEnd
def expM : Mach w0.bits := machAt expMid
def expEndM : Mach w0.bits :=
  machAt { engAt .expLoop 3 20003 17 988027 with acc := wd 82406, base := wd 371651, exp := 0, cnt := 5 }
def idleM : Mach w0.bits := machAt (Engine.reset _)
def onTurn (m : Mach w0.bits) (t : Turn) : Mach w0.bits := { m with sched := [t] }

theorem test_witness_StepRunsTheDecodedCommand :
    ((checkM 1 3 5 0).engineIsNext ∧ decode (checkM 1 3 5 0).blk.eng.cmd = some .gcd) ∧
    ((onTurn (checkM 4 3 5 7) .engine).engineIsNext ∧ decode (checkM 4 3 5 7).blk.eng.cmd = some .modmul) ∧
    (gcdM.engineIsNext ∧ gcdM.blk.eng.fsm = .gcdLoop) ∧ (invM.engineIsNext ∧ invM.blk.eng.fsm = .invLoop) ∧
    (expM.engineIsNext ∧ expM.blk.eng.fsm = .expLoop) := by
  unfold Mach.engineIsNext; decide

theorem test_witness_IllegalWordCompletesWithIllegalCommand :
    ∀ v ∈ [0x0, 0x5, 0xF, 0x10, 0x11, 0xFFFFFFFF],
      (checkM v 0 0 0).engineIsNext ∧ (checkM v 0 0 0).blk.eng.fsm = .check ∧
        decode (checkM v 0 0 0).blk.eng.cmd = none := by
  unfold Mach.engineIsNext; decide

theorem test_witness_IdleEngineTakesNoStep :
    (onTurn idleM .engine).blk.eng.fsm = .idle ∧ (onTurn idleM .engine).mover = .engine := by
  decide

theorem test_witness_NoEngineStepOfACommandElsewhere :
    (idleM.blk.eng.fsm ≠ .check ∧ idleM.blk.eng.fsm ≠ .gcdLoop ∧ idleM.blk.eng.fsm ≠ .invLoop ∧
      idleM.blk.eng.fsm ≠ .expLoop) ∧
    (invM.blk.eng.fsm ≠ .check ∧ invM.blk.eng.fsm ≠ .gcdLoop ∧ invM.blk.eng.fsm ≠ .expLoop) ∧
    (gcdM.blk.eng.fsm ≠ .check ∧ gcdM.blk.eng.fsm ≠ .invLoop) := by decide

/-- For the check steps of `GCD`, `INV`, `MODEXP` and `MODMUL`, each clause at its boundary. -/
theorem test_witness_CheckSteps :
    (checkM 1 3 5 0).blk.eng.fsm = .check ∧ (checkM 2 3 5 0).blk.eng.fsm = .check ∧
    ((checkM 3 0 0 0).blk.eng.fsm = .check ∧ (checkM 3 0 0 0).blk.eng.lc = 0) ∧
    ((machAt expRange).blk.eng.fsm = .check ∧ (machAt expRange).blk.eng.lc ≠ 0 ∧
      (machAt expRange).blk.eng.rc = true ∧
      (machAt expRange).blk.eng.lc.toNat = (machAt expRange).blk.eng.la.toNat) ∧
    ((checkM 3 7 0 7).blk.eng.fsm = .check ∧ (checkM 3 7 0 7).blk.eng.lc ≠ 0 ∧
      (checkM 3 7 0 7).blk.eng.rc = false) ∧
    ((machAt { expRange with la := wd 988026 }).blk.eng.rc = true ∧
      (machAt { expRange with la := wd 988026 }).blk.eng.la.toNat + 1 =
        (machAt { expRange with la := wd 988026 }).blk.eng.lc.toNat) ∧
    ((checkM 4 5 5 0).blk.eng.lc = 0 ∧ (checkM 4 5 5 1).blk.eng.lc ≠ 0) := by decide

/-- For the loop steps, each clause. -/
theorem test_witness_LoopSteps :
    (gcdEndM.blk.eng.fsm = .gcdLoop ∧ gcdEndM.blk.eng.b = 0) ∧ (gcdM.blk.eng.fsm = .gcdLoop ∧ gcdM.blk.eng.b ≠ 0) ∧
    (invEndM.blk.eng.fsm = .invLoop ∧ invEndM.blk.eng.b = 0) ∧ (invM.blk.eng.fsm = .invLoop ∧ invM.blk.eng.b ≠ 0) ∧
    (expEndM.blk.eng.fsm = .expLoop ∧ expEndM.blk.eng.exp = 0) ∧
    (expM.blk.eng.fsm = .expLoop ∧ expM.blk.eng.exp ≠ 0 ∧ expM.blk.eng.lc ≠ 0) := by decide

theorem test_witness_ModularMultiplierIsExact : wd 1 ≠ 0 ∧ wd 0xFFFFFFFF ≠ 0 := by decide

theorem test_witness_ErrorPriority :
    ((checkM 5 0 0 0).engineIsNext ∧ decode (checkM 5 0 0 0).blk.eng.cmd = none) ∧
    ((machAt { expRange with lc := 0 }).engineIsNext ∧
      decode (machAt { expRange with lc := 0 }).blk.eng.cmd = some .modexp) ∧
    ((machAt expRange).engineIsNext ∧ decode (machAt expRange).blk.eng.cmd = some .modexp ∧
      (machAt expRange).blk.eng.lc ≠ 0 ∧ (machAt expRange).blk.eng.rc = true ∧
      (machAt expRange).blk.eng.lc.toNat ≤ (machAt expRange).blk.eng.la.toNat) ∧
    ((checkM 4 5 5 0).engineIsNext ∧ decode (checkM 4 5 5 0).blk.eng.cmd = some .modmul ∧
      (checkM 4 5 5 0).blk.eng.lc = 0) := by
  unfold Mach.engineIsNext; decide

/-- For the two frames: a working and a completing step of each command goes on. -/
theorem test_witness_CommandFrames :
    exec .gcd ⟨w0, gcdM⟩ = .next ⟨w0, gcdM.setBlk (gcdLoopStep gcdM.blk)⟩ ∧
    exec .gcd ⟨w0, gcdEndM⟩ = .next ⟨w0, gcdEndM.setBlk (gcdLoopStep gcdEndM.blk)⟩ ∧
    exec .inv ⟨w0, invM⟩ = .next ⟨w0, invM.setBlk (invLoopStep invM.blk)⟩ ∧
    exec .inv ⟨w0, invEndM⟩ = .next ⟨w0, invEndM.setBlk (invLoopStep invEndM.blk)⟩ ∧
    exec .modexp ⟨w0, expM⟩ = .next ⟨w0, expM.setBlk (modexpLoopStep expM.blk)⟩ ∧
    exec .modexp ⟨w0, expEndM⟩ = .next ⟨w0, expEndM.setBlk (modexpLoopStep expEndM.blk)⟩ ∧
    exec .modmul ⟨w0, checkM 4 3 4 5⟩ = .next ⟨w0, (checkM 4 3 4 5).setBlk (modmulCheck (checkM 4 3 4 5).blk)⟩ :=
  ⟨rfl, rfl, rfl, rfl, rfl, rfl, rfl⟩

/-! ### The port -/

theorem test_witness_CmdWrites :
    idleM.blk.eng.fsm = .idle ∧ gcdM.blk.eng.fsm ≠ .idle := by decide

theorem test_witness_OnlyAcceptanceAndResetReachTheEngine :
    (¬ ((0x4#4 : BitVec 4) = 0x4#4 ∧ gcdM.blk.eng.fsm = .idle) ∧
      ¬ ((0x4#4 : BitVec 4) = 0x2#4 ∧ (wd 4).getLsbD 2 = true)) ∧
    (¬ ((0x2#4 : BitVec 4) = 0x4#4 ∧ idleM.blk.eng.fsm = .idle) ∧
      ¬ ((0x2#4 : BitVec 4) = 0x2#4 ∧ (wd 3).getLsbD 2 = true)) := by decide

theorem test_witness_PortWritesDoNotDisturbARunningCommand :
    gcdM.blk.eng.fsm ≠ .idle ∧ ¬ ((0x4#4 : BitVec 4) = 0x2#4 ∧ (wd 1).getLsbD 2 = true) ∧
    exec .gcd ⟨w0, gcdM⟩ = .next ⟨w0, gcdM.setBlk (gcdLoopStep gcdM.blk)⟩ ∧
    gcdEndM.blk.eng.fsm ≠ .idle ∧
    exec .gcd ⟨w0, gcdEndM⟩ = .next ⟨w0, gcdEndM.setBlk (gcdLoopStep gcdEndM.blk)⟩ :=
  ⟨by decide, by decide, rfl, by decide, rfl⟩

theorem test_witness_ReservedAndReadOnlyIndices :
    0xB ≤ (0xB#4).toNat ∧ 0xB ≤ (0xF#4).toNat ∧
    ((0x0#4 = 0x0#4 ∨ 0x0#4 = 0x1#4 ∨ 0x0#4 = 0x8#4 ∨ 0x0#4 = 0x9#4 ∨ 0x0#4 = 0xA#4) ∧
      (0xA#4 = 0x0#4 ∨ 0xA#4 = 0x1#4 ∨ 0xA#4 = 0x8#4 ∨ 0xA#4 = 0x9#4 ∨ 0xA#4 = 0xA#4)) := by decide

/-- Two written values that differ, and in reserved bits only: of `PARAM` at `OPW = 64`, of `CTRL`, and of
`STATUS` (bit 3 and the bits from 8). -/
theorem test_witness_ReservedBits :
    (∀ k, 32 ≤ k ∨ (0x100000000#64).getLsbD k = (0#64).getLsbD k) ∧
    (∀ k, 3 ≤ k ∨ (wd 0xFFFFFFFB).getLsbD k = (wd 3).getLsbD k) ∧
    (∀ k, k = 3 ∨ 8 ≤ k ∨ (wd 0xFFFFFF0E).getLsbD k = (wd 6).getLsbD k) := by
  have h1 : ∀ k < 32, (0x100000000#64).getLsbD k = (0#64).getLsbD k := by decide
  have h2 : ∀ k < 3, (wd 0xFFFFFFFB).getLsbD k = (wd 3).getLsbD k := by decide
  have h3 : ∀ k < 8, k = 3 ∨ (wd 0xFFFFFF0E).getLsbD k = (wd 6).getLsbD k := by decide
  refine ⟨fun k => ?_, fun k => ?_, fun k => ?_⟩
  · exact (Nat.lt_or_ge k 32).symm.imp_right (h1 k)
  · exact (Nat.lt_or_ge k 3).symm.imp_right (h2 k)
  · rcases Nat.lt_or_ge k 8 with h | h
    · exact (h3 k h).imp_right .inr
    · exact .inr (.inl h)

theorem test_witness_ParamReadsRevisionAndWidth :
    (w0.bits < 2 ^ 16 ∧ (OpWidth.bits ⟨2046⟩) < 2 ^ 16) ∧
    (OpWidth.bits ⟨2047⟩ = 2 ^ 16 ∧ OpWidth.bits ⟨4094⟩ < 2 ^ 17) := by decide

theorem test_witness_ControlWrites :
    ((wd 4).getLsbD 2 = true ∧ (wd 7).getLsbD 2 = true) ∧
    ((wd 3).getLsbD 2 = false ∧ (wd 0).getLsbD 2 = false) := by decide

theorem test_witness_ResetStateAndSoftReset :
    2 ≤ (0x2#4).toNat ∧ 2 ≤ (0xF#4).toNat ∧ (wd 7).getLsbD 2 = true := by decide

/-! ### Resets and the host -/

def inResetM : Mach w0.bits := { idleM with resetIn := true }

theorem test_witness_HardResetAbortsAndResets :
    (onTurn gcdM .assertReset).mover = .assertReset ∧ (onTurn inResetM .releaseReset).mover = .releaseReset ∧
    ((onTurn inResetM .engine).mover = .engine ∧ (onTurn inResetM .engine).resetIn = true) ∧
    (inResetM.upcoming.1 = .due ∧ inResetM.resetIn = true) := by decide

/-- A host whose turn it is, at the start of a script. -/
def scriptM (script : List Stmt) (names : List (Nat × Nat)) : Mach w0.bits :=
  hostAt (Engine.reset _) script names

theorem test_witness_PortOperationDuringHardResetIsRefused :
    (onTurn { scriptM [.rd .id 0] [] with resetIn := true } .host).hostIsNext ∧
    (scriptM [.rd .id 0] []).host.script[(scriptM [.rd .id 0] []).host.pos]? = some (.rd .id 0) ∧
    (∀ l, (.rd .id 0 : Stmt) ≠ .label l) ∧ (∀ c l, (.rd .id 0 : Stmt) ≠ .ifGoto c l) ∧
    (∀ k v, (.rd .id 0 : Stmt) ≠ .draw k v) := by
  refine ⟨by unfold Mach.hostIsNext; decide, rfl, (fun l h => by cases h), (fun c l h => by cases h),
    (fun k v h => by cases h)⟩

theorem test_witness_HostPortStatements :
    ((scriptM [.wr .opa (.num 0xFFFFFFFF)] []).hostIsNext ∧ (scriptM [.wr .opa (.num 0xFFFFFFFF)] []).resetIn = false ∧
      (scriptM [.wr .opa (.num 0xFFFFFFFF)] []).host.script[0]? = some (.wr .opa (.num 0xFFFFFFFF)) ∧
      (HostVal.num 0xFFFFFFFF).eval [] = some 0xFFFFFFFF ∧ 0xFFFFFFFF < 2 ^ w0.bits) ∧
    ((onTurn (hostAt gcdMid [.rd .opa 3] []) .host).hostIsNext ∧
      (hostAt gcdMid [.rd .opa 3] []).host.script[0]? = some (.rd .opa 3)) ∧
    ((scriptM [.poll .statusDone (.name 3)] [(3, 1)]).hostIsNext ∧
      (HostVal.name 3).eval [(3, 1)] = some 1) := by
  unfold Mach.hostIsNext; decide

/-- A machine at an `if` on the name 0, bound to 1: of rule R88 and of P1 (`=` and `≠`), taken and not. -/
def ifM (eq : Bool) (rhs : Nat) : Mach w0.bits :=
  scriptM [.ifGoto ⟨0, none, eq, rhs⟩ 5, .label 5, .label 5] [(0, 1)]

theorem test_witness_HostControlStatements :
    ((scriptM [.label 0] []).hostIsNext ∧ (scriptM [.label 0] []).host.script[0]? = some (.label 0)) ∧
    (∀ c ∈ [(true, 1), (true, 2), (false, 1), (false, 2)],
      (ifM c.1 c.2).hostIsNext ∧ findLabel 5 (ifM c.1 c.2).host.script = some 1 ∧
        lookupName 0 (ifM c.1 c.2).host.names = some 1) ∧
    (∀ c ∈ [(true, 2), (false, 1)], ¬ (1 = c.2 ↔ c.1 = true)) ∧
    ((scriptM [.ifGoto ⟨0, some .statusOvr, true, 1⟩ 5] [(0, 2)]).hostIsNext ∧
      ¬ (Field.get .statusOvr 2 = 1 ↔ true = true) ∧
      findLabel 5 [.ifGoto ⟨0, some .statusOvr, true, 1⟩ 5] = none) ∧
    (∀ phi ∈ [0, 3, 4, 0xFFFFFFFF], (scriptM [.draw 0 (.num phi)] []).hostIsNext ∧
      (HostVal.num phi).eval [] = some phi ∧ phi < 2 ^ w0.bits) := by
  unfold Mach.hostIsNext; decide

/-- The `if` of P1 is taken on `=`, and is not on `≠`. -/
theorem test_if_goes :
    step ⟨w0, ifM true 1⟩ = .next ⟨w0, { (ifM true 1).turnUsed with host := { (ifM true 1).host with pos := 1 } }⟩ ∧
    step ⟨w0, ifM false 1⟩ = .next ⟨w0, (ifM false 1).turnUsed.advance⟩ ∧
    step ⟨w0, ifM false 2⟩ = .next ⟨w0, { (ifM false 2).turnUsed with host := { (ifM false 2).host with pos := 1 } }⟩ :=
  ⟨rfl, rfl, rfl⟩

theorem test_witness_HostStatementsThatCannotBeCarriedOut :
    ((scriptM [.wr .opa (.name 0)] []).hostIsNext ∧ (HostVal.name 0).eval (scriptM [] []).host.names = none) ∧
    ((scriptM [.poll .statusDone (.name 0)] []).hostIsNext ∧ lookupName 0 (scriptM [] []).host.names = none) ∧
    ((scriptM [.wr .opa (.num (2 ^ 32))] []).hostIsNext ∧ 2 ^ w0.bits ≤ 2 ^ 32) ∧
    ((scriptM [.ifGoto ⟨0, none, true, 1⟩ 5] [(0, 1)]).hostIsNext ∧
      Cond.holds [(0, 1)] ⟨0, none, true, 1⟩ = some true ∧
      findLabel 5 [.ifGoto ⟨0, none, true, 1⟩ 5] = none) ∧
    ((scriptM [.draw 0 (.name 1)] []).hostIsNext ∧ (HostVal.name 1).eval (scriptM [] []).host.names = none) ∧
    ((scriptM [.draw 0 (.num (2 ^ 32))] []).hostIsNext ∧ (HostVal.num (2 ^ 32)).eval [] = some (2 ^ 32)) := by
  unfold Mach.hostIsNext; decide

/-- A write, a read and a turn without a transaction, each with its step. -/
theorem test_witness_HostTurnPerformsItsTransaction :
    (step ⟨w0, scriptM [.wr .opa (.num 7)] []⟩ =
        .next ⟨w0, ((scriptM [.wr .opa (.num 7)] []).turnUsed.setBlk
          (portWrite (scriptM [] []).blk 0x5#4 (wd 7))).advance⟩ ∧
      (scriptM [.wr .opa (.num 7)] []).hostTxn = some (.w 0x5#4 7)) ∧
    (step ⟨w0, scriptM [.rd .id 0] []⟩ = .next ⟨w0, ((scriptM [.rd .id 0] []).turnUsed.bind 0 0x47434445).advance⟩ ∧
      (scriptM [.rd .id 0] []).hostTxn = some (.r 0x0#4 0x47434445)) ∧
    (step ⟨w0, scriptM [.label 0] []⟩ = .next ⟨w0, (scriptM [.label 0] []).turnUsed.advance⟩ ∧
      (scriptM [.label 0] []).hostTxn = none) :=
  ⟨⟨rfl, by decide⟩, ⟨rfl, by decide⟩, ⟨rfl, by decide⟩⟩

theorem test_witness_BoundNamesGiveTheValueReadLast :
    (([(1, 5), (3, 7)] : List (Nat × Nat)).map Prod.fst).Pairwise (· < ·) ∧ (2 : Nat) ≠ 3 := by decide

theorem test_witness_PollThatNeverComesHangs :
    ((scriptM [.poll .statusDone (.num 1)] []).resetIn = false ∧
      1 ≤ (scriptM [.poll .statusDone (.num 1)] []).sched.length ∧
      .assertReset ∉ (scriptM [.poll .statusDone (.num 1)] []).sched ∧
      .releaseReset ∉ (scriptM [.poll .statusDone (.num 1)] []).sched) ∧
    (scriptM [.poll .statusDone (.num 1)] []).blk.eng.fsm = .idle ∧
    (scriptM [.poll .statusDone (.num 1)] []).blk.regs.done = false ∧
    (scriptM [.poll .statusDone (.num 1)] []).host.script[0]? = some (.poll .statusDone (.num 1)) := by decide

/-- The host at the start of a `run`, its turns given by name or as due. -/
def runM (u : Turn) (op : Nat) (c : Option Nat) : Mach w0.bits :=
  { scriptM (run (.num op) (.num 20003) (.num 17) (c.map .num)) [] with
    sched := List.replicate (if c.isSome then 4 else 3) u ++ [.engine] }

theorem test_witness_RunPseudoCommandStartsItsCommand :
    ∀ u ∈ [Turn.host, Turn.due], ∀ p ∈ [(3, some 988027), (1, none)],
      (runM u p.1 p.2).resetIn = false ∧ (runM u p.1 p.2).blk.eng.fsm = .idle ∧
      (runM u p.1 p.2).sched = List.replicate (if p.2.isSome then 4 else 3) u ++ [.engine] ∧
      (runM u p.1 p.2).host.pos = 0 ∧
      (runM u p.1 p.2).host.script =
        run (.num p.1) (.num 20003) (.num 17) (p.2.map .num) ++ [] ∧
      988027 < 2 ^ w0.bits := by decide

/-! ### Whole commands -/

/-- A command at its check step with `k` engine turns coming next. -/
def runsM (cmd la lb lc k : Nat) : Mach w0.bits :=
  { checkM cmd la lb lc with sched := List.replicate k .engine ++ [.host] }

theorem test_witness_GcdCommandDeliversTheGcd :
    (runsM 1 1071 462 0 5).resetIn = false ∧ (runsM 1 1071 462 0 5).blk.eng.fsm = .check ∧
    decode (runsM 1 1071 462 0 5).blk.eng.cmd = some .gcd ∧ (runsM 1 1071 462 0 5).blk.eng.cnt = 0 ∧
    euclidIters (runsM 1 1071 462 0 5).blk.eng.la.toNat (runsM 1 1071 462 0 5).blk.eng.lb.toNat + 2 = 5 := by
  decide

/-- Each clause: an inverse (V-INV-5), the least modulus `m = 2`, `m = 1`, `m = 0` and a gcd that is not 1. -/
theorem test_witness_InvCommandDeliversTheInverse :
    (∀ c ∈ [(10, 7, 6), (1, 2, 3), (1, 1, 3), (1, 0, 3), (4, 6, 4)],
      (runsM 2 c.1 c.2.1 0 c.2.2).resetIn = false ∧ (runsM 2 c.1 c.2.1 0 c.2.2).blk.eng.fsm = .check ∧
      decode (runsM 2 c.1 c.2.1 0 c.2.2).blk.eng.cmd = some .inv ∧
      (runsM 2 c.1 c.2.1 0 c.2.2).blk.eng.cnt = 0 ∧
      euclidIters (runsM 2 c.1 c.2.1 0 c.2.2).blk.eng.lb.toNat
        (runsM 2 c.1 c.2.1 0 c.2.2).blk.eng.la.toNat + 2 = c.2.2) ∧
    (Nat.gcd 10 7 = 1 ∧ 2 ≤ 7) ∧ (Nat.gcd 1 2 = 1 ∧ 2 ≤ 2) ∧ 1 < 2 ∧ 0 < 2 ∧ Nat.gcd 4 6 ≠ 1 := by
  decide

/-- The range check off, and on with a base just below the modulus. -/
theorem test_witness_ModexpCommandDeliversThePower :
    ((runsM 3 20003 17 988027 7).resetIn = false ∧ (runsM 3 20003 17 988027 7).blk.eng.fsm = .check ∧
      decode (runsM 3 20003 17 988027 7).blk.eng.cmd = some .modexp ∧
      (runsM 3 20003 17 988027 7).blk.eng.cnt = 0 ∧ (runsM 3 20003 17 988027 7).blk.eng.lc ≠ 0 ∧
      (runsM 3 20003 17 988027 7).blk.eng.rc = false ∧
      bitlen (runsM 3 20003 17 988027 7).blk.eng.lb.toNat + 2 = 7) ∧
    (machAt { expRange with la := wd 988026 }).blk.eng.rc = true ∧
    (machAt { expRange with la := wd 988026 }).blk.eng.la.toNat <
      (machAt { expRange with la := wd 988026 }).blk.eng.lc.toNat := by decide

/-- The small key of W5: `p, q = 5, 11`, `e = 3`, `d = 27`; `7^3 mod 55 = 13`, which the key takes back. -/
theorem test_witness_EncryptThenDecryptReturnsTheMessage :
    Nat.Prime 5 ∧ Nat.Prime 11 ∧ 5 ≠ 11 ∧
    (∀ c ∈ [(7, 3, 4), (13, 27, 7)],
      (runsM 3 c.1 c.2.1 55 c.2.2).blk.eng.fsm = .check ∧
      decode (runsM 3 c.1 c.2.1 55 c.2.2).blk.eng.cmd = some .modexp ∧
      (runsM 3 c.1 c.2.1 55 c.2.2).blk.eng.cnt = 0 ∧ (runsM 3 c.1 c.2.1 55 c.2.2).resetIn = false ∧
      (runsM 3 c.1 c.2.1 55 c.2.2).blk.eng.la.toNat < (runsM 3 c.1 c.2.1 55 c.2.2).blk.eng.lc.toNat ∧
      (runsM 3 c.1 c.2.1 55 c.2.2).blk.eng.lc.toNat = 5 * 11 ∧
      bitlen (runsM 3 c.1 c.2.1 55 c.2.2).blk.eng.lb.toNat + 2 = c.2.2) ∧
    (runsM 3 7 3 55 4).blk.eng.lb.toNat * (runsM 3 13 27 55 7).blk.eng.lb.toNat % deriveTotient 5 11 = 1 :=
  ⟨by norm_num, by norm_num, by decide, by decide, by decide⟩

theorem test_witness_EveryRunningCommandCompletes :
    ∀ m ∈ [checkM 0 0 0 0, gcdM, invM, expM, { gcdM with sched := [] }],
      m.resetIn = false ∧ m.blk.eng.fsm ≠ .idle := by decide

/-! ### The invariant -/

/-- The invariant of a machine whose host has no script, from the invariant of its block. -/
theorem inv_of_block {m : Mach w0.bits} (h : m.blk.Inv) (hr : m.resetIn = false)
    (hh : m.host = HostAgent.reset) : m.Inv :=
  ⟨h, by simp [hr], by simp [hh, HostAgent.reset], by simp [hh, HostAgent.reset], by simp [hh, HostAgent.reset]⟩

/-- V-INV-5 `(10, 7)` after iteration 3. -/
def inv3M : Mach w0.bits :=
  machAt { engAt .invLoop 2 10 7 0 with a := 3, b := 1, x0 := 1, x1 := -2, cnt := 3 }
/-- V-INV-5 before the completing step. -/
def inv4M : Mach w0.bits :=
  machAt { engAt .invLoop 2 10 7 0 with a := 1, b := 0, x0 := -2, x1 := 7, cnt := 4 }

theorem test_inv_inv3M : inv3M.Inv :=
  inv_of_block ⟨by decide, by decide, (fun h => by cases h),
    fun _ => ⟨by decide, by decide, by decide, by decide, by decide, by decide, by decide, by decide, by decide,
      by decide⟩, (fun h => by cases h), (fun h => by cases h), by decide⟩ rfl rfl

theorem test_inv_inv4M : inv4M.Inv :=
  inv_of_block ⟨by decide, by decide, (fun h => by cases h),
    fun _ => ⟨by decide, by decide, by decide, by decide, by decide, by decide, by decide, by decide, by decide,
      by decide⟩, (fun h => by cases h), (fun h => by cases h), by decide⟩ rfl rfl

/-- In a state of the invariant, with the whole interleaving free. -/
theorem test_witness_EveryRunningCommandCompletes_inv :
    { inv3M with sched := [] }.Inv ∧ inv3M.resetIn = false ∧ inv3M.blk.eng.fsm ≠ .idle :=
  ⟨⟨test_inv_inv3M.block, test_inv_inv3M.inReset, test_inv_inv3M.pos, test_inv_inv3M.names,
    test_inv_inv3M.sorted⟩, by decide⟩

/-- For `InvFinalizeCompletes`: both signs of `x0`, the invariant, and `d` within the register. -/
theorem test_witness_InvFinalizeCompletes :
    (inv4M.blk.eng.fsm = .invLoop ∧ inv4M.blk.eng.b = 0 ∧ inv4M.Inv ∧
      inv4M.blk.eng.x0 < 0 ∧ inv4M.blk.eng.a.toNat = 1 ∧ 2 ≤ inv4M.blk.eng.lb.toNat) ∧
    (0 ≤ invResult inv4M.blk.eng.x0 inv4M.blk.eng.lb ∧
      invResult inv4M.blk.eng.x0 inv4M.blk.eng.lb < 2 ^ w0.bits) :=
  ⟨⟨rfl, rfl, test_inv_inv4M, by decide, by decide, by decide⟩, by decide⟩

theorem test_witness_StepKeepsInvariant :
    (inv3M.Inv ∧ step ⟨w0, inv3M⟩ = .next ⟨w0, inv3M.turnUsed.setBlk (invLoopStep inv3M.blk)⟩) ∧
    (inv4M.Inv ∧ step ⟨w0, inv4M⟩ = .next ⟨w0, inv4M.turnUsed.setBlk (invLoopStep inv4M.blk)⟩) :=
  ⟨⟨test_inv_inv3M, rfl⟩, ⟨test_inv_inv4M, rfl⟩⟩

theorem test_witness_BezoutCoefficientsStayInRange :
    (inv3M.Inv ∧ inv3M.blk.eng.fsm = .invLoop ∧ inv3M.blk.eng.b ≠ 0) ∧
    (inv4M.Inv ∧ inv4M.blk.eng.fsm = .invLoop) :=
  ⟨⟨test_inv_inv3M, rfl, by decide⟩, test_inv_inv4M, rfl⟩

theorem test_witness_IterationCounterNeverWraps :
    inv3M.Inv ∧ inv3M.blk.eng.fsm ≠ .idle ∧ inv3M.blk.eng.fsm ≠ .check ∧
    exec .inv ⟨w0, inv3M⟩ = .next ⟨w0, inv3M.setBlk (invLoopStep inv3M.blk)⟩ ∧
    (invLoopStep inv3M.blk).eng.fsm ≠ .idle :=
  ⟨test_inv_inv3M, by decide, by decide, rfl, by decide⟩

/-! ### Steps of the whole machine -/

theorem test_witness_StepKeepsTheWidth : ∃ t, step ⟨w0, idleM⟩ = .next t := ⟨_, rfl⟩

/-- An iteration, a completion, a soft reset and a hard reset. -/
theorem test_witness_ResultsChangeOnlyAtCompletionOrReset :
    (∃ m', step ⟨w0, gcdM⟩ = .next ⟨w0, m'⟩ ∧ m'.blk.eng.fsm = .gcdLoop) ∧
    (∃ m', step ⟨w0, gcdEndM⟩ = .next ⟨w0, m'⟩ ∧ m'.blk.regs.done = true ∧ m'.blk.regs.result = 21) ∧
    (∃ m', step ⟨w0, scriptM [.wr .ctrl (.num 4)] []⟩ = .next ⟨w0, m'⟩ ∧ m'.blk = Block.reset _) ∧
    (∃ m', step ⟨w0, onTurn gcdM .assertReset⟩ = .next ⟨w0, m'⟩ ∧ m'.blk = Block.reset _) :=
  ⟨⟨_, rfl, rfl⟩, ⟨_, rfl, rfl, rfl⟩, ⟨_, rfl, rfl⟩, ⟨_, rfl, rfl⟩⟩

theorem test_witness_OnlyAcceptedCmdWriteWakesTheEngine :
    ∃ m', step ⟨w0, scriptM [.wr .cmd (.num 1)] []⟩ = .next ⟨w0, m'⟩ ∧
      (scriptM [.wr .cmd (.num 1)] []).blk.eng.fsm = .idle ∧ m'.blk.eng.fsm ≠ .idle :=
  ⟨_, rfl, rfl, by decide⟩

/-- A machine with `OVR` and `DONE` set, at the start of a script. -/
def stickyM (script : List Stmt) : Mach w0.bits :=
  { scriptM script [] with blk := ⟨{ Regs.reset _ with ovr := true, done := true }, Engine.reset _⟩ }

theorem test_witness_OverrunIsStickyUntilCleared :
    (∃ m', step ⟨w0, onTurn (hostAt gcdMid [.wr .cmd (.num 1)] []) .host⟩ = .next ⟨w0, m'⟩ ∧
      (hostAt gcdMid [.wr .cmd (.num 1)] []).blk.regs.ovr = false ∧ m'.blk.regs.ovr = true) ∧
    (∃ m', step ⟨w0, stickyM [.wr .status (.num 4)]⟩ = .next ⟨w0, m'⟩ ∧
      (stickyM []).blk.regs.ovr = true ∧ m'.blk.regs.ovr = false) ∧
    (∃ m', step ⟨w0, stickyM [.wr .ctrl (.num 4)]⟩ = .next ⟨w0, m'⟩ ∧ m'.blk.regs.ovr = false) :=
  ⟨⟨_, rfl, rfl, rfl⟩, ⟨_, rfl, rfl, rfl⟩, ⟨_, rfl, rfl⟩⟩

theorem test_witness_DoneIsStickyUntilCleared :
    (∃ m', step ⟨w0, gcdEndM⟩ = .next ⟨w0, m'⟩ ∧ gcdEndM.blk.regs.done = false ∧ m'.blk.regs.done = true) ∧
    (∃ m', step ⟨w0, stickyM [.wr .status (.num 2)]⟩ = .next ⟨w0, m'⟩ ∧
      (stickyM []).blk.regs.done = true ∧ m'.blk.regs.done = false) ∧
    (∃ m', step ⟨w0, stickyM [.wr .cmd (.num 0)]⟩ = .next ⟨w0, m'⟩ ∧ m'.blk.regs.done = false) ∧
    (∃ m', step ⟨w0, stickyM [.wr .ctrl (.num 4)]⟩ = .next ⟨w0, m'⟩ ∧ m'.blk.regs.done = false) :=
  ⟨⟨_, rfl, rfl, rfl⟩, ⟨_, rfl, rfl, rfl⟩, ⟨_, rfl, rfl⟩, ⟨_, rfl, rfl⟩⟩

/-- A `CMD` write and a W1C of `DONE` just before a completing step. -/
theorem test_witness_PortOperationBeforeCompletingStep :
    ∀ r ∈ [Reg.cmd, Reg.status],
      ({ hostAt gcdEnd [.wr r (.num 2)] [] with sched := [.host, .engine] }).resetIn = false ∧
      (hostAt gcdEnd [.wr r (.num 2)] []).blk.eng.fsm ≠ .idle ∧ 2 < 2 ^ w0.bits ∧
      (hostAt gcdEnd [.wr r (.num 2)] []).host.script[0]? = some (.wr r (.num 2)) ∧
      ∃ u : Mach w0.bits,
        engineTurn ⟨w0, { hostAt gcdEnd [.wr r (.num 2)] [] with sched := [.host, .engine] }⟩ = .next ⟨w0, u⟩ ∧
        u.blk.eng.fsm = .idle :=
  fun _ _ => ⟨rfl, (fun h => by cases h), by decide, rfl, _, rfl, rfl⟩

theorem test_witness_OnlyPortOperationsDuringResetAreRefused :
    step ⟨w0, onTurn { scriptM [.rd .id 0] [] with resetIn := true } .host⟩ =
      .refused .portDuringHardReset := rfl

/-- A well-formed script that uses a name before it reads it. -/
def earlyM : Mach w0.bits := scriptM [.wr .opa (.name 0), .rd .id 0] []

theorem test_witness_WellFormedScriptsFaultOnlyOnUnreadNames :
    earlyM.Inv ∧ scriptWf w0 earlyM.host.script = true ∧ step ⟨w0, earlyM⟩ = .fault .unboundName := by
  refine ⟨⟨⟨?_, ?_, ?_, ?_, ?_, ?_, ?_⟩, ?_, ?_, ?_, ?_⟩, by decide, rfl⟩
  all_goals first | decide | (intro h; cases h)

theorem test_witness_EndedProgramsRest :
    (stickyM []).ended = true ∧ (stickyM []).mover = .host ∧ (onTurn (stickyM []) .engine).ended = true ∧
    (onTurn (stickyM []) .engine).mover = .engine := by decide

end Sys2Proof.Tests
end

section
/-! The proofs of the scope's statements: the parameter word and the operand width. -/

namespace Sys2Proof.Machine

/-- `PARAM` is read-only (rule R20): a write to its index leaves the block as it was. -/
@[simp] theorem portWrite_1 {n : Nat} (b : Block n) (v : Word n) : portWrite b 0x1#4 v = b := rfl

/-- `REV`, above the 16-bit width field, is the constant 1 at every width (rule R25, ruling D6). -/
theorem paramWord_rev {n : Nat} (hn : 32 ≤ n) : (paramWord n).toNat / 2 ^ 16 = 0x0001 := by
  rw [paramWord_toNat hn]
  omega

/-- The low half of `PARAM` is the low 16 bits of `OPW` (rule R24). -/
theorem paramWord_opw {n : Nat} (hn : 32 ≤ n) : (paramWord n).toNat % 2 ^ 16 = n % 2 ^ 16 := by
  rw [paramWord_toNat hn]
  omega

/-- Settles O36: what a read of index 1 returns is `paramWord`, a function of the width alone. -/
theorem paramReadsRevisionAndWidth : Obligations.ParamReadsRevisionAndWidth := by
  intro w b b' v
  have hw := w.bits_ge
  rw [portRead_1 b, portRead_1 b']
  exact ⟨paramWord_rev hw, paramWord_opw hw, paramWord_toNat_eq_or hw, paramWord_toNat_eq_add hw,
    rfl, portWrite_1 b v⟩

/-- Settles O52: a step is an outcome of the machine at the width it started from. -/
theorem stepKeepsTheWidth : Obligations.StepKeepsTheWidth := by
  rintro ⟨w, m⟩ t h
  rw [step_eq, liftOutcome_next_iff] at h
  obtain ⟨m', -, rfl⟩ := h
  rfl

end Sys2Proof.Machine
end

section
/-! The invariant of the machine: kept by every change a step makes to the block and to the host agent,
and with it the bound on the iteration counter. -/

namespace Sys2Proof.Machine

variable {n : Nat}

/-! ### What a delivery says, and what it depends on -/

/-- A delivery is a statement about the completion registers `RESULT`, `AUX`, `ITER` and `ERR` only. -/
theorem Delivered.congr {r r' : Regs n} {e : Engine n} (h : Delivered r e)
    (hres : r'.result = r.result) (haux : r'.aux = r.aux) (hit : r'.iter = r.iter)
    (herr : r'.err = r.err) : Delivered r' e := by
  simpa only [Delivered, DeliveredGcd, DeliveredInv, DeliveredModexp, DeliveredModmul, Regs.holds,
    hres, haux, hit, herr] using h

/-- Every command delivers an `ITER` of at most `2·OPW + 2` (rule R38). -/
theorem Delivered.iter_le {r : Regs n} {e : Engine n} (h : Delivered r e) :
    r.iter.toNat ≤ 2 * n + 2 := by
  have hbits := bitlen_le e.lb.isLt
  cases hd : decode e.cmd with
  | none =>
    simp only [Delivered, hd] at h
    obtain ⟨-, -, -, hit⟩ := h
    omega
  | some i =>
    cases i <;> simp only [Delivered, hd] at h
    case gcd =>
      obtain ⟨-, -, -, hit⟩ := h
      have := euclidIters_le n (a := e.la.toNat) e.lb.isLt
      omega
    case inv =>
      obtain ⟨-, hit, -⟩ := h
      have := euclidIters_le n (a := e.lb.toNat) e.la.isLt
      omega
    case modexp =>
      unfold DeliveredModexp at h
      split_ifs at h <;> obtain ⟨-, -, -, hit⟩ := h <;> omega
    case modmul =>
      unfold DeliveredModmul at h
      split_ifs at h <;> obtain ⟨-, -, -, hit⟩ := h <;> omega

/-! ### The invariant of the block -/

theorem Block.Inv.engineInv {b : Block n} (h : b.Inv) : EngineInv b.eng :=
  ⟨h.check, h.gcdLoop, h.invLoop, h.expLoop⟩

/-- An idle block is in the invariant when what `DONE` announces is delivered. -/
theorem Block.inv_of_idle {b : Block n} (hf : b.eng.fsm = .idle)
    (hd : b.regs.done = true → Delivered b.regs b.eng) (hit : b.regs.iter.toNat ≤ 2 * n + 2) :
    b.Inv :=
  ⟨fun h => absurd hf h, by simp [hf], by simp [hf], by simp [hf], by simp [hf], hd, hit⟩

/-- A busy block is in the invariant when its engine is, `DONE` and `ERR` are 0 and `ITER` is in its
bound. -/
theorem Block.inv_of_busy {b : Block n} (he : EngineInv b.eng) (hd : b.regs.done = false)
    (herr : b.regs.err = .none) (hit : b.regs.iter.toNat ≤ 2 * n + 2) : b.Inv :=
  ⟨fun _ => ⟨hd, herr⟩, he.check, he.gcdLoop, he.invLoop, he.expLoop,
    fun h => by simp [hd] at h, hit⟩

theorem Block.inv_reset (n : Nat) : (Block.reset n).Inv :=
  Block.inv_of_idle rfl (fun h => by cases h) (Nat.zero_le _)

/-- A completion that delivers is in the invariant: the delivery bounds `ITER`. -/
theorem Block.inv_of_delivered {b : Block n} (hf : b.eng.fsm = .idle) (hd : Delivered b.regs b.eng) :
    b.Inv :=
  Block.inv_of_idle hf (fun _ => hd) hd.iter_le

theorem fsm_ne_idle_of_blockStep {i : Instr} {b c : Block n} (h : blockStep i b = some c) :
    b.eng.fsm ≠ .idle := by
  intro hf
  have := (blockStep_isSome_iff i b).1 (by simp [h])
  simp [hf] at this

/-- A command's engine step keeps the invariant of the block. -/
theorem Block.Inv.blockStep (hn : 32 ≤ n) {i : Instr} {b c : Block n} (hi : b.Inv)
    (h : blockStep i b = some c) (hd : b.eng.fsm = .check → decode b.eng.cmd = some i) : c.Inv := by
  obtain ⟨hdone, herr⟩ := hi.busyClear (fsm_ne_idle_of_blockStep h)
  rcases engineInv_step hn hi.engineInv h hd with ⟨hbusy, he⟩ | ⟨hidle, -, hdel⟩
  · rcases blockStep_cases h with ⟨err, r, aux, it, rfl⟩ | ⟨hregs, -⟩
    · exact absurd (b.complete_fsm err r aux it) hbusy
    · rw [← hregs] at hdone herr
      exact Block.inv_of_busy he hdone herr (hregs ▸ hi.iterBound)
  · exact Block.inv_of_delivered hidle hdel

/-- An accepted command starts at `CHECK` with the counter at 0 (rule R100). -/
theorem Block.Inv.accept {b : Block n} (hi : b.Inv) (v : Word n) : (b.accept v).Inv :=
  Block.inv_of_busy ⟨fun _ => rfl, (fun h => by cases h), (fun h => by cases h), fun h => by cases h⟩
    rfl rfl hi.iterBound

/-- A port write keeps the invariant of the block (rules R30 to R35, R109). -/
theorem Block.Inv.writeReg {b : Block n} (hi : b.Inv) (v : Word n) (r : Reg) :
    (b.writeReg v r).Inv := by
  rcases b.writeReg_cases v r with
    ⟨-, -, e⟩ | ⟨-, -, e⟩ | ⟨heng, hres, haux, hit, herr, hdone⟩
  · rw [e]; exact Block.inv_reset n
  · rw [e]; exact hi.accept v
  · refine ⟨fun hf => ?_, heng ▸ hi.check, heng ▸ hi.gcdLoop, heng ▸ hi.invLoop, heng ▸ hi.expLoop,
      fun h => ?_, hit ▸ hi.iterBound⟩
    · obtain ⟨hd, he⟩ := hi.busyClear (heng ▸ hf)
      exact ⟨Bool.eq_false_iff.2 fun h => by simp [hdone h] at hd, herr.trans he⟩
    · rw [heng]; exact (hi.delivered (hdone h)).congr hres haux hit herr

/-! ### The invariant of the host agent -/

/-- The part of the machine's invariant that speaks of the host agent: its position and its bound
names stay legal. -/
structure HostAgent.Inv (n : Nat) (a : HostAgent) : Prop where
  pos : a.pos ≤ a.script.length
  names : ∀ p ∈ a.names, p.2 < 2 ^ n
  sorted : (a.names.map Prod.fst).Pairwise (· < ·)

theorem Mach.Inv.hostInv {m : Mach n} (h : m.Inv) : m.host.Inv n := ⟨h.pos, h.names, h.sorted⟩

theorem Mach.inv_of_parts {m : Mach n} (hb : m.blk.Inv) (hr : m.resetIn = true → m.blk = Block.reset n)
    (hh : m.host.Inv n) : m.Inv := ⟨hb, hr, hh.pos, hh.names, hh.sorted⟩

/-- Binding a name keeps the names strictly rising. -/
theorem bindName_sorted (k v : Nat) {names : List (Nat × Nat)}
    (h : (names.map Prod.fst).Pairwise (· < ·)) :
    ((bindName k v names).map Prod.fst).Pairwise (· < ·) := by
  induction names with
  | nil => simp [bindName]
  | cons q rest ih =>
    rw [List.map_cons, List.pairwise_cons] at h
    obtain ⟨hq, hrest⟩ := h
    rw [List.forall_mem_map] at hq
    simp only [bindName]
    split_ifs with hlt heq
    · simp only [List.map_cons, List.pairwise_cons, List.forall_mem_cons, List.forall_mem_map]
      exact ⟨⟨hlt, fun p hp => hlt.trans (hq p hp)⟩, hq, hrest⟩
    · simp only [List.map_cons, List.pairwise_cons, List.forall_mem_map]
      exact ⟨fun p hp => heq ▸ hq p hp, hrest⟩
    · simp only [List.map_cons, List.pairwise_cons, List.forall_mem_map]
      refine ⟨fun p hp => ?_, ih hrest⟩
      rcases mem_bindName hp with rfl | hp
      · show q.1 < k
        omega
      · exact hq p hp

/-- A bound value that a register can hold keeps the host's invariant. -/
theorem HostAgent.Inv.bind {a : HostAgent} (h : a.Inv n) (k : Nat) {v : Nat} (hv : v < 2 ^ n) :
    HostAgent.Inv n { a with names := bindName k v a.names } where
  pos := h.pos
  names p hp := by
    rcases mem_bindName hp with rfl | hp
    · exact hv
    · exact h.names p hp
  sorted := bindName_sorted k v h.sorted

/-- The position may move to any statement of the script, or behind its last one. -/
theorem HostAgent.Inv.move {a : HostAgent} (h : a.Inv n) {p : Nat} (hp : p ≤ a.script.length) :
    HostAgent.Inv n { a with pos := p } := ⟨hp, h.names, h.sorted⟩

/-- The number of draws made is free. -/
theorem HostAgent.Inv.draw {a : HostAgent} (h : a.Inv n) (d : Nat) :
    HostAgent.Inv n { a with drawn := d } := ⟨h.pos, h.names, h.sorted⟩

theorem lt_length_of_statement {script : List Stmt} {p : Nat} {st : Stmt} (h : script[p]? = some st) :
    p < script.length := (List.getElem?_eq_some_iff.1 h).1

/-- A turn of the host keeps the host's invariant: it goes on to the statement after the one it
executes, stays, or jumps to a label of the script, and binds values of `OPW` bits (rule R88). -/
theorem hostInv_hostTurn {m t : Mach n} (hi : m.host.Inv n) (h : hostTurn m = .next t) :
    t.host.Inv n := by
  have next {st : Stmt} (hst : m.host.script[m.host.pos]? = some st) :
      m.host.pos + 1 ≤ m.host.script.length := lt_length_of_statement hst
  unfold hostTurn at h
  split at h
  · cases h; exact hi
  · rename_i r v hst
    simp only [Mach.portTurn, hostWr] at h
    split_ifs at h
    split at h
    · cases h
    · split_ifs at h
      cases h; exact hi.move (next hst)
  · rename_i r k hst
    simp only [Mach.portTurn, hostRd] at h
    split_ifs at h
    cases h; exact (hi.bind k (portRead m.blk r.idx).isLt).move (next hst)
  · rename_i f v hst
    simp only [Mach.portTurn, hostPoll] at h
    split_ifs at h
    split at h
    · cases h
    · split_ifs at h <;> cases h
      · exact hi.move (next hst)
      · exact hi
  · rename_i l hst
    cases h; exact hi.move (next hst)
  · rename_i c l hst
    simp only [hostIfGoto] at h
    split at h
    · cases h
    · cases h; exact hi.move (next hst)
    · split at h <;> cases h
      rename_i p hp
      exact hi.move (lt_length_of_statement (findLabel_spec hp)).le
  · rename_i k v hst
    simp only [hostDraw] at h
    split at h
    · cases h
    · split_ifs at h with hphi
      cases h
      exact ((hi.bind k (hostCandidate_lt m.host.drawn hphi)).move (next hst)).draw _

/-! ### The invariant of the machine -/

/-- A step of the machine at a width keeps the invariant. -/
theorem Mach.Inv.stepM (hn : 32 ≤ n) {m t : Mach n} (hi : m.Inv) (h : stepM m = .next t) : t.Inv := by
  have hh := hi.hostInv
  rcases stepM_cases h with ⟨⟨hr, -⟩, b, rfl, hb⟩ | ⟨hhost, hr, r, v, x, -, -, -, rfl⟩ |
    ⟨-, ht, a, rfl⟩ | ⟨-, rfl⟩ | ⟨-, rfl⟩ | ⟨-, rfl⟩
  case inl =>
    refine Mach.inv_of_parts ?_ (fun hr' => by simp [hr] at hr') hh
    rcases hb with ⟨i, hb, hd⟩ | ⟨-, hd, rfl⟩
    · exact hi.block.blockStep hn hb hd
    · exact Block.inv_of_delivered rfl (delivered_illegal hd)
  case inr.inl =>
    rw [stepM_of_hostIsNext hhost] at h
    exact Mach.inv_of_parts (hi.block.writeReg _ r) (fun hr' => by simp [hr] at hr')
      (hostInv_hostTurn (m := m.turnUsed) hh h)
  case inr.inr.inl =>
    exact Mach.inv_of_parts hi.block hi.inReset (hostInv_hostTurn (m := m.turnUsed) hh ht)
  case inr.inr.inr.inl => exact Mach.inv_of_parts hi.block hi.inReset hh
  case inr.inr.inr.inr.inl => exact Mach.inv_of_parts (Block.inv_reset n) (fun _ => rfl) hh
  case inr.inr.inr.inr.inr => exact Mach.inv_of_parts (Block.inv_reset n) (fun _ => rfl) hh

/-- Settles O30: the engine's steps, the port writes, the host's turns and the edges of the reset input
each keep their part of the invariant. -/
theorem stepKeepsInvariant : Obligations.StepKeepsInvariant := by
  rintro ⟨w, m⟩ t hi h
  rw [step_eq, liftOutcome_next_iff] at h
  obtain ⟨m', hm', rfl⟩ := h
  exact Mach.Inv.stepM w.bits_ge hi hm'

/-! ### The iteration counter -/

/-- A running command has counted at most `2·OPW` iterations (rule R38). -/
theorem EngineInv.cnt_le {e : Engine n} (h : EngineInv e) (hf : e.fsm ≠ .idle) :
    e.cnt.toNat ≤ 2 * n := by
  cases hs : e.fsm with
  | idle => exact absurd hs hf
  | check => simp [h.check hs]
  | gcdLoop =>
    have hcount := (h.gcdLoop hs).count
    have hle := euclidIters_le n (a := e.la.toNat) e.lb.isLt
    omega
  | invLoop =>
    have hcount := (h.invLoop hs).count
    have hle := euclidIters_le n (a := e.lb.toNat) e.la.isLt
    omega
  | expLoop =>
    have hcount := (h.expLoop hs).count
    have hle := bitlen_le e.lb.isLt
    omega

/-- A loop step that does not complete is an iteration, and counts one (rules R121, R131, R142). -/
theorem cnt_of_blockStep {i : Instr} {b c : Block n} (h : blockStep i b = some c)
    (hf : b.eng.fsm ≠ .check) (hc : c.eng.fsm ≠ .idle) : c.eng.cnt = b.eng.cnt + 1 := by
  cases i <;> simp only [blockStep, gcdBlock, invBlock, modexpBlock, modmulBlock] at h <;>
    split at h <;> cases h <;> rename_i hs
  · exact absurd hs hf
  · by_cases hb : b.eng.b = 0
    · exact absurd (by rw [gcdLoopStep_done hb]; rfl) hc
    · rw [gcdLoopStep_iterate hb]
  · exact absurd hs hf
  · by_cases hb : b.eng.b = 0
    · exact absurd (by rw [invLoopStep_done hb]; rfl) hc
    · rw [invLoopStep_iterate hb, invIterate]
  · exact absurd hs hf
  · by_cases hb : b.eng.exp = 0
    · exact absurd (by rw [modexpLoopStep_done hb]; rfl) hc
    · rw [modexpLoopStep_iterate hb, modexpIterate]
  · exact absurd hs hf

/-- Settles O32: the invariant bounds the counter below its greatest value, so the one increment of an
iteration does not wrap. -/
theorem iterationCounterNeverWraps : Obligations.IterationCounterNeverWraps := by
  intro w m i b hi hbusy
  have hle := hi.block.engineInv.cnt_le hbusy
  refine ⟨by omega, fun hcheck hexec hb => ?_⟩
  have hroom := counter_room w.bits_ge
  have hcnt := cnt_of_blockStep ((exec_next_setBlk_iff i w m b).1 hexec) hcheck hb
  rw [hcnt, cnt_succ (by omega)]

end Sys2Proof.Machine
end

section
/-! What a step can do to the host-visible registers: `RESULT`, `AUX` and `ITER`, and the sticky bits
`OVR` and `DONE`. -/

namespace Sys2Proof.Machine

variable {n : Nat}

/-- What a step can do to the register file: a completion of the command that ran, a port write of the
host, a reset, or nothing (rules R102, R106, R190). -/
theorem stepM_regs_cases {m t : Mach n} (h : stepM m = .next t) :
    (m.blk.eng.fsm ≠ .idle ∧ ∃ err r aux it, t.blk = m.blk.complete err r aux it) ∨
    (m.hostIsNext ∧ ∃ r v x, m.host.script[m.host.pos]? = some (.wr r v) ∧
      v.eval m.host.names = some x ∧ t.blk = m.blk.writeReg (BitVec.ofNat n x) r) ∨
    t.blk = Block.reset n ∨ t.blk.regs = m.blk.regs := by
  rcases stepM_cases h with ⟨⟨-, hbusy, -⟩, b, rfl, hb⟩ | ⟨hhost, -, r, v, x, hst, hv, -, rfl⟩ |
    ⟨-, -, a, rfl⟩ | ⟨-, rfl⟩ | ⟨-, rfl⟩ | ⟨-, rfl⟩
  case inl =>
    rcases hb with ⟨i, hb, -⟩ | ⟨-, -, rfl⟩
    · rcases blockStep_cases hb with hc | ⟨hregs, -⟩
      · exact .inl ⟨hbusy, hc⟩
      · exact .inr (.inr (.inr hregs))
    · exact .inl ⟨hbusy, _, _, _, _, rfl⟩
  case inr.inl => exact .inr (.inl ⟨hhost, r, v, x, hst, hv, rfl⟩)
  case inr.inr.inl => exact .inr (.inr (.inr rfl))
  case inr.inr.inr.inl => exact .inr (.inr (.inr rfl))
  case inr.inr.inr.inr.inl => exact .inr (.inr (.inl rfl))
  case inr.inr.inr.inr.inr => exact .inr (.inr (.inl rfl))

/-- A port write leaves `RESULT`, `AUX` and `ITER`, unless it is a soft reset (rules R36 to R38). -/
theorem Block.writeReg_results (b : Block n) (v : Word n) (r : Reg) :
    ((b.writeReg v r).regs.result = b.regs.result ∧ (b.writeReg v r).regs.aux = b.regs.aux ∧
      (b.writeReg v r).regs.iter = b.regs.iter) ∨ b.writeReg v r = Block.reset n := by
  rcases b.writeReg_cases v r with ⟨-, -, e⟩ | ⟨-, -, e⟩ | ⟨-, hres, haux, hit, -⟩
  · exact .inr e
  · exact .inl (e ▸ ⟨rfl, rfl, rfl⟩)
  · exact .inl ⟨hres, haux, hit⟩

/-- A bit of a number written to a register is that bit of the number. -/
theorem testBit_of_getLsbD_ofNat {x k : Nat} (h : (BitVec.ofNat n x).getLsbD k = true) :
    x.testBit k = true := by
  rw [BitVec.getLsbD_ofNat, Bool.and_eq_true] at h
  exact h.2

/-- Settles O53: a step completes, resets, or leaves the three result registers. -/
theorem resultsChangeOnlyAtCompletionOrReset : Obligations.ResultsChangeOnlyAtCompletionOrReset := by
  intro w m m' h
  rcases stepM_regs_cases ((step_next_iff w m m').1 h) with
    ⟨hbusy, err, r, aux, it, e⟩ | ⟨-, r, v, x, -, -, e⟩ | e | e
  · exact .inr (.inl ⟨hbusy, by rw [e]; rfl, by rw [e]; rfl⟩)
  · rw [e]
    exact (m.blk.writeReg_results _ r).imp_right .inr
  · exact .inr (.inr e)
  · exact .inl (e ▸ ⟨rfl, rfl, rfl⟩)

/-- What a step can do to `OVR`: set it by a dropped `CMD` write, clear it by a W1C or a reset, or leave
it (rules R31, R101). -/
theorem stepM_ovr {m t : Mach n} (h : stepM m = .next t) :
    t.blk.regs.ovr = m.blk.regs.ovr ∨
    (t.blk.regs.ovr = true ∧ m.blk.eng.fsm ≠ .idle ∧ m.hostIsNext ∧
      ∃ v, m.host.script[m.host.pos]? = some (.wr .cmd v)) ∨
    (t.blk.regs.ovr = false ∧ m.hostIsNext ∧ ∃ v x,
      m.host.script[m.host.pos]? = some (.wr .status v) ∧ v.eval m.host.names = some x ∧
      x.testBit 2 = true) ∨
    t.blk.regs = Regs.reset n := by
  rcases stepM_regs_cases h with
    ⟨-, err, r, aux, it, e⟩ | ⟨hhost, r, v, x, hst, hv, e⟩ | e | e
  · exact .inl (by rw [e]; rfl)
  · rw [e]
    rcases m.blk.writeReg_ovr (BitVec.ofNat n x) r with
      hw | ⟨rfl, hbusy, hw⟩ | ⟨rfl, hbit, hw⟩ | hw
    · exact .inl hw
    · exact .inr (.inl ⟨hw, hbusy, hhost, v, hst⟩)
    · exact .inr (.inr (.inl ⟨hw, hhost, v, x, hst, hv, testBit_of_getLsbD_ofNat hbit⟩))
    · exact .inr (.inr (.inr (by rw [hw]; rfl)))
  · exact .inr (.inr (.inr (by rw [e]; rfl)))
  · exact .inl (by rw [e])

/-- What a step can do to `DONE`: set it in a completion, clear it by an acceptance, a W1C or a reset, or
leave it (rules R30, R100, R106). -/
theorem stepM_done {m t : Mach n} (h : stepM m = .next t) :
    t.blk.regs.done = m.blk.regs.done ∨
    (t.blk.regs.done = true ∧ m.blk.eng.fsm ≠ .idle ∧ t.blk.eng.fsm = .idle) ∨
    (t.blk.regs.done = false ∧ m.hostIsNext ∧ ∃ r v x,
      m.host.script[m.host.pos]? = some (.wr r v) ∧ v.eval m.host.names = some x ∧
      ((r = .cmd ∧ m.blk.eng.fsm = .idle) ∨ (r = .status ∧ x.testBit 1 = true))) ∨
    t.blk.regs = Regs.reset n := by
  rcases stepM_regs_cases h with
    ⟨hbusy, err, r, aux, it, e⟩ | ⟨hhost, r, v, x, hst, hv, e⟩ | e | e
  · exact .inr (.inl (by rw [e]; exact ⟨rfl, hbusy, rfl⟩))
  · rw [e]
    rcases m.blk.writeReg_done (BitVec.ofNat n x) r with
      hw | ⟨hr, hidle, hw⟩ | ⟨hr, hbit, hw⟩ | hw
    · exact .inl hw
    · exact .inr (.inr (.inl ⟨hw, hhost, r, v, x, hst, hv, .inl ⟨hr, hidle⟩⟩))
    · exact .inr (.inr (.inl
        ⟨hw, hhost, r, v, x, hst, hv, .inr ⟨hr, testBit_of_getLsbD_ofNat hbit⟩⟩))
    · exact .inr (.inr (.inr (by rw [hw]; rfl)))
  · exact .inr (.inr (.inr (by rw [e]; rfl)))
  · exact .inl (by rw [e])

/-- Settles O55: a step that changes `OVR` is a dropped `CMD` write, a W1C or a reset. -/
theorem overrunIsStickyUntilCleared : Obligations.OverrunIsStickyUntilCleared := by
  intro w m m' h
  rcases stepM_ovr ((step_next_iff w m m').1 h) with hsame | ⟨hset, hdrop⟩ | ⟨hclr, hw1c⟩ | hreset
  · rw [hsame]
    exact ⟨fun h0 h1 => absurd (h0.symm.trans h1) Bool.false_ne_true,
      fun h1 h0 => absurd (h0.symm.trans h1) Bool.false_ne_true⟩
  · exact ⟨fun _ _ => hdrop, fun _ h0 => absurd (h0.symm.trans hset) Bool.false_ne_true⟩
  · exact ⟨fun _ h1 => absurd (hclr.symm.trans h1) Bool.false_ne_true, fun _ _ => .inr hw1c⟩
  · exact ⟨fun _ h1 => by simp [hreset] at h1, fun _ _ => .inl hreset⟩

/-- Settles O56: a step that changes `DONE` is a completion, an accepted `CMD` write, a W1C or a reset. -/
theorem doneIsStickyUntilCleared : Obligations.DoneIsStickyUntilCleared := by
  intro w m m' h
  rcases stepM_done ((step_next_iff w m m').1 h) with hsame | ⟨hset, hcomp⟩ | ⟨hclr, hhost⟩ | hreset
  · rw [hsame]
    exact ⟨fun h0 h1 => absurd (h0.symm.trans h1) Bool.false_ne_true,
      fun h1 h0 => absurd (h0.symm.trans h1) Bool.false_ne_true⟩
  · exact ⟨fun _ _ => hcomp, fun _ h0 => absurd (h0.symm.trans hset) Bool.false_ne_true⟩
  · exact ⟨fun _ h1 => absurd (hclr.symm.trans h1) Bool.false_ne_true, fun _ _ => .inr hhost⟩
  · exact ⟨fun _ h1 => by simp [hreset] at h1, fun _ _ => .inl hreset⟩

end Sys2Proof.Machine
end

section
/-! The registers and their fields, as the port reads and writes them. -/

namespace Sys2Proof.Machine

variable {n : Nat}

/-! ### Reserved bits -/

/-- `PARAM` has 32 defined bits. -/
theorem paramWord_getLsbD_reserved {k : Nat} (hk : 32 ≤ k) : (paramWord n).getLsbD k = false := by
  rw [paramWord, BitVec.getLsbD_setWidth, BitVec.getLsbD_of_ge _ _ hk, Bool.and_false]

/-- `CTRL` reads two bits: `SRST`, bit 2, and the reserved ones read 0. -/
theorem Block.ctrlWord_getLsbD_reserved (b : Block n) {k : Nat} (hk : 2 ≤ k) :
    b.ctrlWord.getLsbD k = false := by
  rw [Block.ctrlWord, BitVec.getLsbD_setWidth, BitVec.getLsbD_of_ge _ _ hk, Bool.and_false]

/-- Bit 3 lies between `OVR` and `ERR`. -/
theorem status_bits_getLsbD_three (c : BitVec 4) (o d b : Bool) :
    (c ++ 0#1 ++ BitVec.ofBool o ++ BitVec.ofBool d ++ BitVec.ofBool b).getLsbD 3 = false := by
  revert c o d b; decide

/-- `STATUS` has 8 bits, of which bit 3 is reserved. -/
theorem Block.statusWord_getLsbD_reserved (b : Block n) {k : Nat} (hk : k = 3 ∨ 8 ≤ k) :
    b.statusWord.getLsbD k = false := by
  rw [Block.statusWord, BitVec.getLsbD_setWidth]
  rcases hk with rfl | hk
  · rw [status_bits_getLsbD_three, Bool.and_false]
  · rw [BitVec.getLsbD_of_ge _ _ hk, Bool.and_false]

/-- A `CTRL` write reads bits 0 to 2 of what is written. -/
theorem Block.writeCtrl_congr (b : Block n) {u v : Word n} (h0 : u.getLsbD 0 = v.getLsbD 0)
    (h1 : u.getLsbD 1 = v.getLsbD 1) (h2 : u.getLsbD 2 = v.getLsbD 2) :
    b.writeCtrl u = b.writeCtrl v := by
  simp only [Block.writeCtrl, Regs.writeCtrl, h0, h1, h2]

/-- A `STATUS` write reads bits 1 and 2 of what is written. -/
theorem Regs.writeStatus_congr (r : Regs n) {u v : Word n} (h1 : u.getLsbD 1 = v.getLsbD 1)
    (h2 : u.getLsbD 2 = v.getLsbD 2) : r.writeStatus u = r.writeStatus v := by
  simp only [Regs.writeStatus, h1, h2]

/-- Settles O35: reads have no bit there, and writes read the defined bits only. -/
theorem reservedBitsReadZeroAndAreIgnored : Obligations.ReservedBitsReadZeroAndAreIgnored := by
  intro w b u v
  refine ⟨fun k hk => ?_, fun k hk => ?_, fun k hk => ?_, fun _ => ?_, fun h => ?_, fun h => ?_⟩
  · rw [portRead_1]; exact paramWord_getLsbD_reserved hk
  · rw [portRead_2]; exact b.ctrlWord_getLsbD_reserved (by omega)
  · rw [portRead_3]; exact b.statusWord_getLsbD_reserved hk
  · rw [portWrite_1, portWrite_1]
  · rw [portWrite_2, portWrite_2]
    exact b.writeCtrl_congr ((h 0).resolve_left (by omega)) ((h 1).resolve_left (by omega))
      ((h 2).resolve_left (by omega))
  · have defined {k : Nat} (hk : k ≠ 3 ∧ k < 8) : u.getLsbD k = v.getLsbD k := by
      rcases h k with rfl | hk' | e
      · omega
      · omega
      · exact e
    rw [portWrite_3, portWrite_3, b.regs.writeStatus_congr (defined (by omega)) (defined (by omega))]

/-! ### STATUS and CTRL -/

/-- The error field, above the four other bits of `STATUS`, is the code (rules R32, R33). -/
theorem Block.statusWord_err (hn : 8 ≤ n) (b : Block n) :
    b.statusWord.toNat / 16 = b.regs.err.code.toNat := by
  have hovr := b.regs.ovr.toNat_le
  have hdone := b.regs.done.toNat_le
  have hbusy := b.busy.toNat_le
  rw [b.statusWord_toNat hn]
  omega

theorem Block.busy_toNat (b : Block n) : b.busy.toNat = if b.eng.fsm = .idle then 0 else 1 := by
  by_cases h : b.eng.fsm = .idle <;> simp [Block.busy, h]

/-- A W1C bit keeps its value unless a 1 is written to it (rules R30, R31). -/
theorem Regs.writeStatus_eq (r : Regs n) (v : Word n) :
    r.writeStatus v = { r with
      done := if v.getLsbD 1 then false else r.done,
      ovr := if v.getLsbD 2 then false else r.ovr } := by
  unfold Regs.writeStatus
  cases v.getLsbD 1 <;> cases v.getLsbD 2 <;> simp

/-- Settles O38: a write clears the bits written with 1, and a read packs the four fields. -/
theorem statusWriteClearsAndReadPacks : Obligations.StatusWriteClearsAndReadPacks := by
  refine ⟨rfl, rfl, rfl, rfl, rfl, fun w b v => ?_⟩
  have hw : 8 ≤ w.bits := by have := w.bits_ge; omega
  rw [portRead_3, portWrite_3, Regs.writeStatus_eq]
  refine ⟨rfl, ?_, ?_⟩
  · rw [b.statusWord_toNat hw, b.busy_toNat]
  · rw [b.statusWord_err hw]
    exact b.regs.err.code_le

/-- Settles O37: bit 2 of the word written chooses between the soft reset and the two fields. -/
theorem ctrlWriteSetsFieldsOrResets : Obligations.CtrlWriteSetsFieldsOrResets := by
  intro w b v
  rw [portWrite_2, portRead_2, Block.writeCtrl]
  refine ⟨fun h => ?_, fun h => ?_, b.ctrlWord_toNat (by have := w.bits_ge; omega)⟩
  · rw [if_pos h, Block.softReset]
  · rw [if_neg (by simp [h]), Regs.writeCtrl]

/-! ### Read-only, reserved and operand registers -/

/-- Settles O33: the constant has 31 bits, so every register holds it. -/
theorem idReadsItsConstant : Obligations.IdReadsItsConstant := by
  intro w b v
  have hw : 2 ^ 32 ≤ 2 ^ w.bits := Nat.pow_le_pow_right (by decide) w.bits_ge
  refine ⟨?_, rfl⟩
  rw [portRead_0, BitVec.toNat_ofNat]
  exact Nat.mod_eq_of_lt (lt_of_lt_of_le (by decide) hw)

/-- The indices from `0xB` up name no register (rule R20). -/
theorem Reg.ofIdx_reserved {i : BitVec 4} (h : 0xB ≤ i.toNat) :
    ∃ k, Reg.ofIdx i = .reserved k := by
  revert i; decide

/-- Settles O34: neither kind of register has an arm of its own in a write, and a reserved one reads 0. -/
theorem reservedAndReadOnlyIndices : Obligations.ReservedAndReadOnlyIndices := by
  refine fun w b idx v => ⟨fun h => ?_, ?_⟩
  · obtain ⟨k, hk⟩ := Reg.ofIdx_reserved h
    rw [portRead, portWrite, hk]
    exact ⟨rfl, rfl⟩
  · rintro (rfl | rfl | rfl | rfl | rfl) <;> rfl

/-- Settles O39: each index is its register, read and written whole. -/
theorem operandRegistersStoreFullWords : Obligations.OperandRegistersStoreFullWords := fun _ b v =>
  ⟨portRead_4 b, portWrite_5 b v, portWrite_6 b v, portWrite_7 b v, portRead_5 b, portRead_6 b,
    portRead_7 b, portRead_8 b, portRead_9 b, portRead_10 b⟩

end Sys2Proof.Machine
end

section
/-! The port transaction that the host's turn announces, and the turn that performs it. -/

namespace Sys2Proof.Machine

variable {n : Nat}

/-- Whose turns come next has no part in what the host announces. -/
@[simp] theorem Mach.turnUsed_hostTxn (m : Mach n) : m.turnUsed.hostTxn = m.hostTxn := rfl

/-- The write transactions are those of the `wr` statements whose value the host can write
(rules R88, R195, R207). -/
theorem Mach.hostTxn_eq_w_iff (m : Mach n) (idx : BitVec 4) (d : Nat) :
    m.hostTxn = some (.w idx d) ↔
      m.resetIn = false ∧ ∃ r v, m.host.script[m.host.pos]? = some (.wr r v) ∧
        v.eval m.host.names = some d ∧ d < 2 ^ n ∧ r.idx = idx := by
  simp only [Mach.hostTxn]
  cases m.resetIn with
  | true => simp
  | false =>
    cases m.host.script[m.host.pos]? with
    | none => simp
    | some st =>
      cases st with
      | wr r v =>
        cases hv : v.eval m.host.names with
        | none => simp [hv]
        | some x => by_cases hx : x < 2 ^ n <;> grind
      | _ => simp

/-- A read transaction carries what the port returns (rules R60, R88). -/
theorem Mach.data_of_hostTxn_r {m : Mach n} {idx : BitVec 4} {d : Nat}
    (h : m.hostTxn = some (.r idx d)) : d = (portRead m.blk idx).toNat := by
  simp only [Mach.hostTxn] at h
  split_ifs at h
  split at h
  · split at h
    · split_ifs at h; cases h
    · cases h
  · cases h; rfl
  · split_ifs at h; cases h; rfl
  all_goals cases h

/-- A turn that announces a write performs it and goes on (rules R60, R88). -/
theorem hostTurn_of_hostTxn_w {m : Mach n} {idx : BitVec 4} {d : Nat}
    (h : m.hostTxn = some (.w idx d)) :
    hostTurn m = .next (m.setBlk (portWrite m.blk idx (BitVec.ofNat n d))).advance := by
  obtain ⟨hr, r, v, hst, hv, hd, rfl⟩ := (m.hostTxn_eq_w_iff idx d).1 h
  simp only [hostTurn, hst, Mach.portTurn_released hr, hostWr, hv, if_pos hd]

/-- A turn that announces no write changes the host agent alone (rules R65, R88). -/
theorem hostTurn_next_of_hostTxn_ne_w {m t : Mach n} (h : hostTurn m = .next t)
    (hno : ∀ idx d, m.hostTxn ≠ some (.w idx d)) : ∃ a, t = { m with host := a } := by
  rcases hostTurn_next h with ⟨r, v, x, hst, hv, hr, hx, -⟩ | hhost
  · exact absurd ((m.hostTxn_eq_w_iff r.idx x).2 ⟨hr, r, v, hst, hv, hx, rfl⟩) (hno r.idx x)
  · exact hhost

/-- Settles O48: a step on the host's turn is `hostTurn`, which writes what a write transaction says and
otherwise moves the host agent alone. -/
theorem hostTurnPerformsItsTransaction : Obligations.HostTurnPerformsItsTransaction := by
  intro w m m' hhost hstep
  rw [step_next_iff, stepM_of_hostIsNext hhost] at hstep
  refine ⟨fun idx d h => ?_, fun idx d h => ⟨Mach.data_of_hostTxn_r h, ?_⟩, fun h => ?_⟩
  · rw [← m.turnUsed_hostTxn] at h
    rw [hostTurn_of_hostTxn_w h] at hstep
    cases hstep
    exact ⟨_, rfl⟩
  · exact hostTurn_next_of_hostTxn_ne_w hstep (by simp [h])
  · exact hostTurn_next_of_hostTxn_ne_w hstep (by simp [h])

end Sys2Proof.Machine
end

section
/-! The command word: the decoder and the encoder agree, and the words that decode are the legal ones. -/

namespace Sys2Proof

variable {n : Nat}

/-- A word decodes to a command exactly when its `MBZ` bits are zero and its `OP` is the command's
(rule R87). -/
theorem decode_eq_some_iff_fields (v : Word n) (i : Instr) :
    decode v = some i ↔ mbzField v = 0 ∧ opField v = i.opcode := by
  have hop : decodeOp (opField v) = some i ↔ opField v = i.opcode :=
    ⟨opcode_of_decodeOp, fun h => by rw [h, decodeOp_opcode]⟩
  rw [← hop, decode]
  split_ifs with h <;> simp [h]

/-- A word with zero `MBZ` bits is its `OP` (rule R80). -/
theorem fields_eq_iff_toNat (v : Word n) (op : BitVec 4) :
    mbzField v = 0 ∧ opField v = op ↔ v.toNat = op.toNat := by
  have hop := op.isLt
  rw [← BitVec.toNat_inj, opField_toNat, mbzField_eq]
  omega

/-- A word decodes to a command exactly when it is that command's opcode, as a number (rule R82). -/
theorem decode_eq_some_iff_toNat (v : Word n) (i : Instr) :
    decode v = some i ↔ v.toNat = i.opcode.toNat := by
  rw [decode_eq_some_iff_fields, fields_eq_iff_toNat]

/-- Settles O2: both sides say that the word, as a number, is the command's opcode. -/
theorem decodeIsExactlyEncode : Obligations.DecodeIsExactlyEncode := by
  intro w v i
  have hw : 4 ≤ w.bits := by have := w.bits_ge; omega
  rw [decode_eq_some_iff_toNat, ← BitVec.toNat_inj, encode_toNat hw]

/-- The words that decode, by their two fields (rule R81). -/
theorem decode_isSome_iff (v : Word n) :
    (decode v).isSome = true ↔ v.toNat / 16 = 0 ∧
      (v.toNat % 16 = 1 ∨ v.toNat % 16 = 2 ∨ v.toNat % 16 = 3 ∨ v.toNat % 16 = 4) := by
  rw [← mbzField_eq, ← opField_toNat, ← decodeOp_isSome_iff, decode]
  split_ifs with h <;> simp [h]

theorem legalWord_iff (v : Word n) :
    legalWord v = true ↔ v.toNat / 16 = 0 ∧ 1 ≤ v.toNat % 16 ∧ v.toNat % 16 ≤ 4 := by
  rw [legalWord, decide_eq_true_iff]

/-- Settles O3: each form bounds the word to the numbers 1 to 4. -/
theorem legalWordsAreTheOnesThatDecode : Obligations.LegalWordsAreTheOnesThatDecode := by
  intro w v
  rw [decode_isSome_iff, legalWord_iff]
  exact ⟨Iff.rfl, by omega, by omega⟩

/-- Settles O1: the four words of the opcode map have their opcodes as numbers; each other word has a
reserved `OP` or an `MBZ` bit set. -/
theorem opcodeMapWordsDecode : Obligations.OpcodeMapWordsDecode := by
  have legal (v : Word 32) (i : Instr) (h : v.toNat = i.opcode.toNat) : decode v = some i :=
    (decode_eq_some_iff_toNat v i).2 h
  exact ⟨legal _ _ rfl, legal _ _ rfl, legal _ _ rfl, legal _ _ rfl, by decide⟩

end Sys2Proof
end

section
/-! The bound names of a host script. -/

namespace Sys2Proof.Machine

/-- A name just bound has the value it was bound to. -/
theorem lookupName_bindName_same (k v : Nat) (names : List (Nat × Nat)) :
    lookupName k (bindName k v names) = some v := by
  induction names with
  | nil => simp [bindName, lookupName]
  | cons q rest ih =>
    simp only [bindName]
    split_ifs with hlt heq
    · simp [lookupName]
    · simp [lookupName]
    · simp [lookupName, heq, ih]

/-- Binding a name leaves what every other name has. -/
theorem lookupName_bindName_of_ne {j k : Nat} (h : j ≠ k) (v : Nat) (names : List (Nat × Nat)) :
    lookupName j (bindName k v names) = lookupName j names := by
  induction names with
  | nil => simp [bindName, lookupName, h]
  | cons q rest ih =>
    simp only [bindName]
    split_ifs with hlt heq
    · simp [lookupName, h]
    · simp [lookupName, h, ← heq]
    · simp [lookupName, ih]

/-- Settles O49: the name bound, the other names, and the canonical order. -/
theorem boundNamesGiveTheValueReadLast : Obligations.BoundNamesGiveTheValueReadLast :=
  fun k _ v names hsorted => ⟨lookupName_bindName_same k v names,
    fun hj => lookupName_bindName_of_ne hj v names, bindName_sorted k v hsorted⟩

end Sys2Proof.Machine
end

section
/-! The check step of an illegal command word. -/

namespace Sys2Proof.Machine

/-- Settles O5: the engine's turn fails the command with `ILLEGAL_COMMAND`. -/
theorem illegalWordCompletesWithIllegalCommand :
    Obligations.IllegalWordCompletesWithIllegalCommand := by
  intro w m hnext hf hd
  rw [step_eq, stepM_of_engineIsNext hnext, engineTurnM_illegal (m := m.turnUsed) hf hd,
    liftOutcome_next]
  rfl

end Sys2Proof.Machine
end

section
/-! The host's turn, statement by statement: what each one does, and where it cannot be carried out. -/

namespace Sys2Proof.Machine

variable {n : Nat}

/-! ### The statement at the host's position -/

section
variable {m : Mach n}

theorem hostTurn_wr {r v} (hst : m.host.script[m.host.pos]? = some (.wr r v))
    (hr : m.resetIn = false) : hostTurn m = hostWr m r v := by
  simp only [hostTurn, hst, Mach.portTurn_released hr]

theorem hostTurn_rd {r k} (hst : m.host.script[m.host.pos]? = some (.rd r k))
    (hr : m.resetIn = false) : hostTurn m = hostRd m r k := by
  simp only [hostTurn, hst, Mach.portTurn_released hr]

theorem hostTurn_poll {f v} (hst : m.host.script[m.host.pos]? = some (.poll f v)) :
    hostTurn m = m.portTurn (hostPoll m f v) := by
  simp only [hostTurn, hst]

theorem hostTurn_label {l} (hst : m.host.script[m.host.pos]? = some (.label l)) :
    hostTurn m = .next m.advance := by
  simp only [hostTurn, hst]

theorem hostTurn_ifGoto {c l} (hst : m.host.script[m.host.pos]? = some (.ifGoto c l)) :
    hostTurn m = hostIfGoto m c l := by
  simp only [hostTurn, hst]

theorem hostTurn_draw {k v} (hst : m.host.script[m.host.pos]? = some (.draw k v)) :
    hostTurn m = hostDraw m k v := by
  simp only [hostTurn, hst]

/-! ### A statement carried out, and one that is not -/

theorem hostWr_of_lt {v : HostVal} {x} (r : Reg) (hv : v.eval m.host.names = some x)
    (hx : x < 2 ^ n) :
    hostWr m r v = .next (m.setBlk (portWrite m.blk r.idx (BitVec.ofNat n x))).advance := by
  simp only [hostWr, hv, if_pos hx]

theorem hostWr_tooWide {v : HostVal} {x} (r : Reg) (hv : v.eval m.host.names = some x)
    (hx : 2 ^ n ≤ x) : hostWr m r v = .fault .valueTooWide := by
  simp only [hostWr, hv, if_neg hx.not_gt]

theorem hostWr_unbound {v : HostVal} (r : Reg) (hv : v.eval m.host.names = none) :
    hostWr m r v = .fault .unboundName := by
  simp only [hostWr, hv]

theorem hostPoll_bound {v : HostVal} {x} (f : Field) (hv : v.eval m.host.names = some x) :
    hostPoll m f v =
      .next (if f.get (portRead m.blk f.reg.idx).toNat = x then m.advance else m) := by
  simp only [hostPoll, hv]
  split_ifs <;> rfl

theorem hostPoll_unbound {v : HostVal} (f : Field) (hv : v.eval m.host.names = none) :
    hostPoll m f v = .fault .unboundName := by
  simp only [hostPoll, hv]

theorem hostDraw_of_lt {v : HostVal} {phi} (k : Nat) (hv : v.eval m.host.names = some phi)
    (hphi : phi < 2 ^ n) :
    hostDraw m k v = .next { m with host := { m.host with
      pos := m.host.pos + 1, names := bindName k (hostCandidate m.host.drawn phi n) m.host.names,
      drawn := m.host.drawn + 1 } } := by
  simp only [hostDraw, hv, if_pos hphi]

theorem hostDraw_tooWide {v : HostVal} {phi} (k : Nat) (hv : v.eval m.host.names = some phi)
    (hphi : 2 ^ n ≤ phi) : hostDraw m k v = .fault .valueTooWide := by
  simp only [hostDraw, hv, if_neg hphi.not_gt]

theorem hostDraw_unbound {v : HostVal} (k : Nat) (hv : v.eval m.host.names = none) :
    hostDraw m k v = .fault .unboundName := by
  simp only [hostDraw, hv]

/-- The condition of an `if` on a bound name compares its value, or the field of it, with the number:
by `=`, or by `≠` where `eq` is false (rule R88, log entry 16). -/
theorem Cond.holds_of_lookup {c : Cond} {names : List (Nat × Nat)} {v : Nat}
    (h : lookupName c.name names = some v) :
    c.holds names = some (decide ((c.field.map (·.get v)).getD v = c.rhs ↔ c.eq = true)) := by
  simp only [Cond.holds, h, Option.some.injEq]
  cases c.field <;> cases c.eq <;> simp

theorem Cond.holds_unbound {c : Cond} {names : List (Nat × Nat)}
    (h : lookupName c.name names = none) : c.holds names = none := by
  simp only [Cond.holds, h]

theorem hostIfGoto_jumps {c : Cond} {l p} (hc : c.holds m.host.names = some true)
    (hl : findLabel l m.host.script = some p) :
    hostIfGoto m c l = .next { m with host := { m.host with pos := p } } := by
  simp only [hostIfGoto, hc, hl]

theorem hostIfGoto_unknownLabel {c : Cond} {l} (hc : c.holds m.host.names = some true)
    (hl : findLabel l m.host.script = none) : hostIfGoto m c l = .fault .unknownLabel := by
  simp only [hostIfGoto, hc, hl]

theorem hostIfGoto_goesOn {c : Cond} (l) (hc : c.holds m.host.names = some false) :
    hostIfGoto m c l = .next m.advance := by
  simp only [hostIfGoto, hc]

theorem hostIfGoto_unbound {c : Cond} (l) (hc : c.holds m.host.names = none) :
    hostIfGoto m c l = .fault .unboundName := by
  simp only [hostIfGoto, hc]

end

/-- A step on the host's turn goes on where the host does. -/
theorem step_next_of_hostTurn {w : OpWidth} {m t : Mach w.bits} (h : m.hostIsNext)
    (ht : hostTurn m.turnUsed = .next t) : step ⟨w, m⟩ = .next ⟨w, t⟩ := by
  rw [step_of_hostIsNext w h, ht, liftOutcome_next]

/-- A step on the host's turn faults where the host does. -/
theorem step_fault_of_hostTurn {w : OpWidth} {m : Mach w.bits} {f : Fault} (h : m.hostIsNext)
    (ht : hostTurn m.turnUsed = .fault f) : step ⟨w, m⟩ = .fault f := by
  rw [step_of_hostIsNext w h, ht, liftOutcome_fault]

/-! ### The fields of the registers -/

/-- A field is read by division: the bits below it are cut off, then those above it. -/
theorem Field.get_eq (f : Field) (x : Nat) : f.get x = x / 2 ^ f.lo % 2 ^ f.len := by
  rw [Field.get, Nat.shiftRight_eq_div_pow]

/-- The fields of a read of `PARAM` (rules R24, R25). -/
theorem paramWord_fields (hn : 32 ≤ n) :
    Field.paramOpw.get (paramWord n).toNat = n % 2 ^ 16 ∧
    Field.paramRev.get (paramWord n).toNat = 0x0001 := by
  have hopw := paramWord_opw hn
  have hrev := paramWord_rev hn
  simp only [Field.get_eq, Field.lo, Field.len]
  omega

/-- The fields of a read of `CTRL` (rules R26 to R28). -/
theorem Block.ctrlWord_fields (hn : 8 ≤ n) (b : Block n) :
    Field.ctrlIrqEn.get b.ctrlWord.toNat = b.regs.irqEn.toNat ∧
    Field.ctrlRangeChk.get b.ctrlWord.toNat = b.regs.rangeChk.toNat ∧
    Field.ctrlSrst.get b.ctrlWord.toNat = 0 := by
  have hrange := b.regs.rangeChk.toNat_le
  have hirq := b.regs.irqEn.toNat_le
  simp only [Field.get_eq, Field.lo, Field.len, b.ctrlWord_toNat hn]
  omega

/-- The fields of a read of `STATUS` (rules R29 to R33). -/
theorem Block.statusWord_fields (hn : 8 ≤ n) (b : Block n) :
    Field.statusBusy.get b.statusWord.toNat = b.busy.toNat ∧
    Field.statusDone.get b.statusWord.toNat = b.regs.done.toNat ∧
    Field.statusOvr.get b.statusWord.toNat = b.regs.ovr.toNat ∧
    Field.statusErr.get b.statusWord.toNat = b.regs.err.code.toNat := by
  have hbusy := b.busy.toNat_le
  have hdone := b.regs.done.toNat_le
  have hovr := b.regs.ovr.toNat_le
  have herr := b.regs.err.code_le
  simp only [Field.get_eq, Field.lo, Field.len, b.statusWord_toNat hn]
  omega

/-! ### The statements -/

/-- Settles O45: the register map and the fields by their definitions, the fields of a read by the words
the port returns, and each port statement by its turn. -/
theorem hostPortStatements : Obligations.HostPortStatements := by
  refine ⟨by decide, fun x => ?_, fun w b => ?_, fun w m hhost hr =>
    ⟨fun r v x hst hv hx => ?_, fun r k hst => ?_, fun f v x hst hv => ?_⟩⟩
  · simp [Field.reg, Field.get_eq, Field.lo, Field.len]
  · have hw := w.bits_ge
    obtain ⟨hopw, hrev⟩ := paramWord_fields hw
    obtain ⟨hirq, hrange, hsrst⟩ := b.ctrlWord_fields (by omega)
    obtain ⟨hbusy, hdone, hovr, herr⟩ := b.statusWord_fields (by omega)
    rw [portRead_1, portRead_2, portRead_3, ← b.busy_toNat]
    exact ⟨hopw, hrev, hirq, hrange, hsrst, hbusy, hdone, hovr, herr⟩
  · exact step_next_of_hostTurn hhost
      ((hostTurn_wr (m := m.turnUsed) hst hr).trans (hostWr_of_lt r hv hx))
  · exact step_next_of_hostTurn hhost (hostTurn_rd (m := m.turnUsed) hst hr)
  · exact step_next_of_hostTurn hhost ((hostTurn_poll (m := m.turnUsed) hst).trans
      ((Mach.portTurn_released hr _).trans (hostPoll_bound f hv)))

/-- Settles O46: the condition's truth decides where an `if` goes, and a draw binds the host's candidate. -/
theorem hostControlStatements : Obligations.HostControlStatements := by
  intro w m hhost
  have goesOn {c l v} (hst : m.host.script[m.host.pos]? = some (.ifGoto c l))
      (hv : lookupName c.name m.host.names = some v)
      (hc : ¬ ((c.field.map (·.get v)).getD v = c.rhs ↔ c.eq = true)) :
      step ⟨w, m⟩ = .next ⟨w, m.turnUsed.advance⟩ :=
    step_next_of_hostTurn hhost ((hostTurn_ifGoto (m := m.turnUsed) hst).trans
      (hostIfGoto_goesOn l (by rw [Mach.turnUsed_host, Cond.holds_of_lookup hv, decide_eq_false hc])))
  refine ⟨fun l hst => step_next_of_hostTurn hhost (hostTurn_label (m := m.turnUsed) hst),
    fun c l p hst hl => ⟨findLabel_spec hl, fun v hv => ?_⟩, fun c l v => goesOn,
    fun k v phi hst hv hphi => ⟨hostCandidate m.host.drawn phi w.bits, ?_,
      hostCandidate_lt _ hphi, hostCandidate_range _ _⟩⟩
  · by_cases hc : (c.field.map (·.get v)).getD v = c.rhs ↔ c.eq = true
    · rw [if_pos hc]
      exact step_next_of_hostTurn hhost ((hostTurn_ifGoto (m := m.turnUsed) hst).trans
        (hostIfGoto_jumps (by rw [Mach.turnUsed_host, Cond.holds_of_lookup hv, decide_eq_true hc]) hl))
    · rw [if_neg hc]
      exact goesOn hst hv hc
  · exact step_next_of_hostTurn hhost
      ((hostTurn_draw (m := m.turnUsed) hst).trans (hostDraw_of_lt k hv hphi))

/-- Settles O47: each statement that cannot be carried out faults in its turn. -/
theorem hostStatementsThatCannotBeCarriedOut :
    Obligations.HostStatementsThatCannotBeCarriedOut := by
  intro w m hhost hr
  have faults {f} (ht : hostTurn m.turnUsed = .fault f) := step_fault_of_hostTurn hhost ht
  exact ⟨
    fun r v hst hv => faults ((hostTurn_wr (m := m.turnUsed) hst hr).trans (hostWr_unbound r hv)),
    fun f v hst hv => faults ((hostTurn_poll (m := m.turnUsed) hst).trans
      ((Mach.portTurn_released hr _).trans (hostPoll_unbound f hv))),
    fun c l hst hv => faults ((hostTurn_ifGoto (m := m.turnUsed) hst).trans
      (hostIfGoto_unbound l (Cond.holds_unbound hv))),
    fun r v x hst hv hx => faults
      ((hostTurn_wr (m := m.turnUsed) hst hr).trans (hostWr_tooWide r hv hx)),
    fun c l hst hc hl => faults ((hostTurn_ifGoto (m := m.turnUsed) hst).trans
      (hostIfGoto_unknownLabel hc hl)),
    fun k v hst hv => faults ((hostTurn_draw (m := m.turnUsed) hst).trans (hostDraw_unbound k hv)),
    fun k v x hst hv hx => faults
      ((hostTurn_draw (m := m.turnUsed) hst).trans (hostDraw_tooWide k hv hx))⟩

end Sys2Proof.Machine
end

section
/-! A host that polls for a completion that never comes. -/

namespace Sys2Proof.Machine

variable {n : Nat}

/-- The host waits for `DONE` while no command runs that could set it. -/
structure Mach.WaitsInVain (m : Mach n) : Prop where
  idle : m.blk.eng.fsm = .idle
  done : m.blk.regs.done = false
  poll : m.host.script[m.host.pos]? = some (.poll .statusDone (.num 1))

/-- A change that leaves the host, the idle engine and `DONE = 0` leaves the host waiting. -/
theorem Mach.WaitsInVain.of_eq {m t : Mach n} (h : m.WaitsInVain) (hhost : t.host = m.host)
    (hidle : t.blk.eng.fsm = .idle) (hdone : t.blk.regs.done = false) : t.WaitsInVain :=
  ⟨hidle, hdone, hhost ▸ h.poll⟩

theorem Mach.WaitsInVain.turnUsed {m : Mach n} (h : m.WaitsInVain) : m.turnUsed.WaitsInVain :=
  h.of_eq rfl h.idle h.done

/-- An engine turn passes while the engine is idle, in reset or not (log entry 6). -/
theorem stepM_of_engine_idle {m : Mach n} (hm : m.mover = .engine) (hf : m.blk.eng.fsm = .idle) :
    stepM m = .next m.turnUsed := by
  simp only [stepM, hm, turnM, engineTurnM, Mach.turnUsed_blk, hf, ite_self]

/-- A read of `DONE = 0` is not the value waited for: the host reads again (rules R88, R89). -/
theorem Mach.WaitsInVain.hostPoll_reads_again (hn : 8 ≤ n) {m : Mach n} (h : m.WaitsInVain) :
    hostPoll m .statusDone (.num 1) = .next m := by
  obtain ⟨-, hdone, -⟩ := m.blk.statusWord_fields hn
  have hread : Field.statusDone.get (portRead m.blk Field.statusDone.reg.idx).toNat = 0 :=
    hdone.trans (by rw [h.done]; rfl)
  rw [hostPoll_bound (x := 1) _ rfl, if_neg (by rw [hread]; decide)]

/-- Outside a hard reset the turn of either agent passes. -/
theorem Mach.WaitsInVain.stepM_released (hn : 8 ≤ n) {m : Mach n} (h : m.WaitsInVain)
    (hr : m.resetIn = false) (hm : m.mover = .host ∨ m.mover = .engine) :
    stepM m = .next m.turnUsed := by
  rcases hm with hhost | heng
  · rw [stepM_of_hostIsNext hhost, hostTurn_poll h.turnUsed.poll,
      Mach.portTurn_released (m := m.turnUsed) hr, h.turnUsed.hostPoll_reads_again hn]
  · exact stepM_of_engine_idle heng h.idle

/-- Whatever a step does, it reads in reset or leaves the host waiting (rules R192, R195). -/
theorem Mach.WaitsInVain.stepM_cases (hn : 8 ≤ n) {m : Mach n} (h : m.WaitsInVain) :
    stepM m = .refused .portDuringHardReset ∨
      ∃ t, stepM m = .next t ∧ t.host = m.host ∧ t.WaitsInVain := by
  cases hm : m.mover with
  | due => exact absurd hm m.mover_ne_due
  | host =>
    cases hr : m.resetIn with
    | true =>
      rw [stepM_of_hostIsNext hm, hostTurn_poll h.turnUsed.poll,
        Mach.portTurn_inReset (m := m.turnUsed) hr]
      exact .inl rfl
    | false => exact .inr ⟨_, h.stepM_released hn hr (.inl hm), rfl, h.turnUsed⟩
  | engine => exact .inr ⟨_, stepM_of_engine_idle hm h.idle, rfl, h.turnUsed⟩
  | assertReset =>
    exact .inr ⟨assertReset m.turnUsed, by rw [stepM, hm]; rfl, rfl, h.of_eq rfl rfl rfl⟩
  | releaseReset =>
    exact .inr ⟨releaseReset m.turnUsed, by rw [stepM, hm]; rfl, rfl, h.of_eq rfl rfl rfl⟩

/-- No number of steps ends the wait. -/
theorem Mach.WaitsInVain.stepsM_cases (hn : 8 ≤ n) (k : Nat) {m : Mach n} (h : m.WaitsInVain) :
    stepsM k m = .refused .portDuringHardReset ∨
      ∃ t, stepsM k m = .next t ∧ t.host = m.host ∧ t.WaitsInVain := by
  induction k generalizing m with
  | zero => exact .inr ⟨m, rfl, rfl, h⟩
  | succ k ih =>
    rcases h.stepM_cases hn with hstep | ⟨u, hstep, hhost, hu⟩
    · exact .inl (by simp only [stepsM, hstep])
    · simp only [stepsM, hstep, ← hhost]
      exact ih hu

/-- While the turns known hold no edge of the reset input, each step uses up its turn and that is all. -/
theorem Mach.WaitsInVain.stepsM_released (hn : 8 ≤ n) (k : Nat) {m : Mach n} (h : m.WaitsInVain)
    (hr : m.resetIn = false) (hk : k ≤ m.sched.length) (ha : .assertReset ∉ m.sched)
    (hrel : .releaseReset ∉ m.sched) :
    stepsM k m = .next { m with sched := m.sched.drop k } := by
  induction k generalizing m with
  | zero => rfl
  | succ k ih =>
    cases hs : m.sched with
    | nil => simp [hs] at hk
    | cons u us =>
      simp only [hs, List.length_cons, List.mem_cons, not_or, Nat.add_le_add_iff_right] at hk ha hrel
      obtain ⟨hua, hus⟩ := ha
      obtain ⟨hur, hus'⟩ := hrel
      have hm : m.mover = .host ∨ m.mover = .engine := by
        cases u with
        | due => exact .inl (Mach.mover_of_due_idle (by rw [Mach.upcoming_of_cons hs]) hr h.idle)
        | host => exact .inl (Mach.mover_of_cons hs (by decide))
        | engine => exact .inr (Mach.mover_of_cons hs (by decide))
        | assertReset => exact absurd rfl hua
        | releaseReset => exact absurd rfl hur
      simp only [stepsM, h.stepM_released hn hr hm, Mach.turnUsed_of_cons hs,
        List.drop_succ_cons]
      exact ih (m := { m with sched := us }) ⟨h.idle, h.done, h.poll⟩ hr hk hus hus'

/-- Settles O50: the wait is kept by every step, and passes every turn of an agent. -/
theorem pollThatNeverComesHangs : Obligations.PollThatNeverComesHangs := by
  intro w m k hidle hdone hpoll
  have hw : 8 ≤ w.bits := by have := w.bits_ge; omega
  have h : m.WaitsInVain := ⟨hidle, hdone, hpoll⟩
  refine ⟨?_, fun hr hk ha hrel =>
    (steps_next_iff k w m _).2 (h.stepsM_released hw k hr hk ha hrel)⟩
  rw [steps_eq]
  rcases h.stepsM_cases hw k with hk | ⟨t, hk, hhost, ht⟩
  · exact .inl (by rw [hk, liftOutcome_refused])
  · exact .inr ⟨t, by rw [hk, liftOutcome_next], hhost, ht.idle, ht.done⟩

end Sys2Proof.Machine
end

section
/-! The port writes of the pseudo-command `run`. -/

namespace Sys2Proof.Machine

variable {n : Nat}

/-- A turn given to the host by name, or due while no command runs, is the host's (rule R108). -/
theorem Mach.hostIsNext_of_sched {m : Mach n} {u : Turn} {us : List Turn} (hu : u = .host ∨ u = .due)
    (hs : m.sched = u :: us) (hr : m.resetIn = false) (hf : m.blk.eng.fsm = .idle) :
    m.hostIsNext := by
  rcases hu with rfl | rfl
  · exact Mach.mover_of_cons hs (by decide)
  · exact Mach.mover_of_due_idle (by rw [Mach.upcoming_of_cons hs]) hr hf

/-- The machine after a `wr REG, x` in the first of its known turns. -/
def Mach.afterWr (m : Mach n) (r : Reg) (x : Nat) (us : List Turn) : Mach n :=
  { m.setBlk (m.blk.writeReg (BitVec.ofNat n x) r) with
    sched := us, host := { m.host with pos := m.host.pos + 1 } }

/-- A run that begins with a `wr` on the host's turn goes on after it. -/
theorem stepsM_succ_of_wr {m : Mach n} {u : Turn} {us : List Turn} {r : Reg} {x : Nat} (k : Nat)
    (hu : u = .host ∨ u = .due) (hs : m.sched = u :: us) (hr : m.resetIn = false)
    (hf : m.blk.eng.fsm = .idle) (hst : m.host.script[m.host.pos]? = some (.wr r (.num x)))
    (hx : x < 2 ^ n) : stepsM (k + 1) m = stepsM k (m.afterWr r x us) := by
  have hstep : stepM m = .next (m.afterWr r x us) := by
    rw [stepM_of_hostIsNext (Mach.hostIsNext_of_sched hu hs hr hf),
      hostTurn_wr (m := m.turnUsed) hst hr, hostWr_of_lt r rfl hx, portWrite_idx,
      Mach.turnUsed_of_cons hs]
    rfl
  simp only [stepsM, hstep]

/-- The block with the operands of `run` written, `OPC` only where there is a third one. -/
def Block.withOperands (b : Block n) (x y : Nat) (c : Option Nat) : Block n :=
  { b with regs := { b.regs with
      opa := BitVec.ofNat n x, opb := BitVec.ofNat n y,
      opc := (c.map (BitVec.ofNat n)).getD b.regs.opc } }

/-- The block after the writes of `run`: the operands, then the command word (rule R90). -/
def Block.afterRun (b : Block n) (op x y : Nat) (c : Option Nat) : Block n :=
  (b.withOperands x y c).writeCmd (BitVec.ofNat n op)

/-- Operands do not start the engine, so an idle block accepts the command word of `run` (rule R100). -/
theorem Block.afterRun_of_idle {b : Block n} (hf : b.eng.fsm = .idle) (op x y : Nat)
    (c : Option Nat) :
    b.afterRun op x y c = (b.withOperands x y c).accept (BitVec.ofNat n op) := by
  rcases (b.withOperands x y c).writeCmd_cases (BitVec.ofNat n op) with ⟨-, e⟩ | ⟨hbusy, -⟩
  · exact e
  · exact absurd hf hbusy

/-- The writes of `run`, one a turn: four with `C`, three without it. -/
theorem stepsM_run {m : Mach n} {op a b : Nat} {c : Option Nat} {rest : List Stmt} {u : Turn}
    {later : List Turn} {k : Nat} (hk : k = if c.isSome then 4 else 3) (hr : m.resetIn = false)
    (hu : u = .host ∨ u = .due) (hs : m.sched = List.replicate k u ++ later)
    (hf : m.blk.eng.fsm = .idle) (hop : op < 2 ^ n) (ha : a < 2 ^ n) (hb : b < 2 ^ n)
    (hc : ∀ x, c = some x → x < 2 ^ n) (hpos : m.host.pos = 0)
    (hscript : m.host.script = run (.num op) (.num a) (.num b) (c.map .num) ++ rest) :
    stepsM k m = .next { m.setBlk (m.blk.afterRun op a b c) with
      sched := later, host := { m.host with pos := k } } := by
  obtain ⟨blk, resetIn, sched, parts, ⟨script, pos, names, drawn⟩⟩ := m
  subst hk hs hpos hscript
  cases c with
  | none =>
    exact Eq.trans (stepsM_succ_of_wr 2 hu rfl hr hf rfl ha) <|
      Eq.trans (stepsM_succ_of_wr 1 hu rfl hr hf rfl hb) <|
      Eq.trans (stepsM_succ_of_wr 0 hu rfl hr hf rfl hop) rfl
  | some x =>
    exact Eq.trans (stepsM_succ_of_wr 3 hu rfl hr hf rfl ha) <|
      Eq.trans (stepsM_succ_of_wr 2 hu rfl hr hf rfl hb) <|
      Eq.trans (stepsM_succ_of_wr 1 hu rfl hr hf rfl (hc x rfl)) <|
      Eq.trans (stepsM_succ_of_wr 0 hu rfl hr hf rfl hop) rfl

/-- Settles O51: the writes of `run` reach an idle block, which accepts the command word. -/
theorem runPseudoCommandStartsItsCommand : Obligations.RunPseudoCommandStartsItsCommand := by
  intro w m op a b c rest u later k hr hu hs hf hop ha hb hc hpos hscript
  have number {x : Nat} (hx : x < 2 ^ w.bits) : (BitVec.ofNat w.bits x).toNat = x := by
    rw [BitVec.toNat_ofNat, Nat.mod_eq_of_lt hx]
  refine ⟨m.blk.afterRun op a b c,
    (steps_next_iff k w m _).2 (stepsM_run rfl hr hu hs hf hop ha hb hc hpos hscript), ?_⟩
  rw [Block.afterRun_of_idle hf]
  refine ⟨rfl, number hop, number ha, number hb, ?_, rfl, rfl, rfl, ?_⟩
  · cases c with
    | none => rfl
    | some x => exact number (hc x rfl)
  · rw [hscript]
    cases c <;> rfl

end Sys2Proof.Machine
end

section
/-! Where a well-formed host script faults. -/

namespace Sys2Proof.Machine

variable {n : Nat}

/-- Only the host's turn faults (rule R168). -/
theorem hostTurn_of_stepM_fault {m : Mach n} {f : Fault} (h : stepM m = .fault f) :
    hostTurn m.turnUsed = .fault f := by
  cases hm : m.mover with
  | due => exact absurd hm m.mover_ne_due
  | host => rwa [stepM_of_hostIsNext hm] at h
  | engine =>
    simp only [stepM, hm, turnM] at h
    split_ifs at h
    rcases engineTurnM_cases m.turnUsed with ⟨-, e⟩ | ⟨-, b, e, -⟩ <;> rw [e] at h <;> cases h
  | assertReset => rw [stepM, hm] at h; cases h
  | releaseReset => rw [stepM, hm] at h; cases h

/-- A port operation's turn faults where the operation does. -/
theorem Mach.of_portTurn_fault {m : Mach n} {o : Host.Outcome (Mach n) Fault Refusal} {f : Fault}
    (h : m.portTurn o = .fault f) : o = .fault f := by
  rw [Mach.portTurn] at h
  split_ifs at h
  exact h

theorem hostWr_fault {m : Mach n} {r : Reg} {v : HostVal} {f : Fault} (h : hostWr m r v = .fault f) :
    f = .unboundName ∨ ∃ x, v.eval m.host.names = some x ∧ 2 ^ n ≤ x := by
  cases hv : v.eval m.host.names with
  | none => rw [hostWr_unbound r hv] at h; cases h; exact .inl rfl
  | some x =>
    rcases Nat.lt_or_ge x (2 ^ n) with hx | hx
    · rw [hostWr_of_lt r hv hx] at h; cases h
    · exact .inr ⟨x, rfl, hx⟩

theorem hostPoll_fault {m : Mach n} {fld : Field} {v : HostVal} {f : Fault}
    (h : hostPoll m fld v = .fault f) : f = .unboundName := by
  cases hv : v.eval m.host.names with
  | none => rw [hostPoll_unbound fld hv] at h; cases h; rfl
  | some x => rw [hostPoll_bound fld hv] at h; cases h

theorem hostIfGoto_fault {m : Mach n} {c : Cond} {l : Nat} {f : Fault}
    (h : hostIfGoto m c l = .fault f) : f = .unboundName ∨ findLabel l m.host.script = none := by
  cases hc : c.holds m.host.names with
  | none => rw [hostIfGoto_unbound l hc] at h; cases h; exact .inl rfl
  | some holds =>
    cases holds with
    | false => rw [hostIfGoto_goesOn l hc] at h; cases h
    | true =>
      cases hl : findLabel l m.host.script with
      | none => exact .inr rfl
      | some p => rw [hostIfGoto_jumps hc hl] at h; cases h

theorem hostDraw_fault {m : Mach n} {k : Nat} {v : HostVal} {f : Fault}
    (h : hostDraw m k v = .fault f) :
    f = .unboundName ∨ ∃ x, v.eval m.host.names = some x ∧ 2 ^ n ≤ x := by
  cases hv : v.eval m.host.names with
  | none => rw [hostDraw_unbound k hv] at h; cases h; exact .inl rfl
  | some x =>
    rcases Nat.lt_or_ge x (2 ^ n) with hx | hx
    · rw [hostDraw_of_lt k hv hx] at h; cases h
    · exact .inr ⟨x, rfl, hx⟩

/-- The host's turn faults at a name nothing has bound, at a value that no register holds, or at a label
that is not defined (log entry 11). -/
theorem hostTurn_fault {m : Mach n} {f : Fault} (h : hostTurn m = .fault f) :
    f = .unboundName ∨
    (∃ v x, ((∃ r, m.host.script[m.host.pos]? = some (.wr r v)) ∨
        ∃ k, m.host.script[m.host.pos]? = some (.draw k v)) ∧
      v.eval m.host.names = some x ∧ 2 ^ n ≤ x) ∨
    (∃ c l, m.host.script[m.host.pos]? = some (.ifGoto c l) ∧ findLabel l m.host.script = none) := by
  cases hst : m.host.script[m.host.pos]? with
  | none => simp only [hostTurn, hst] at h; cases h
  | some st =>
    cases st with simp only [hostTurn, hst] at h
    | wr r v =>
      exact (hostWr_fault (Mach.of_portTurn_fault h)).imp_right
        fun ⟨x, hx⟩ => .inl ⟨v, x, .inl ⟨r, rfl⟩, hx⟩
    | rd r k => cases Mach.of_portTurn_fault h
    | poll fld v => exact .inl (hostPoll_fault (Mach.of_portTurn_fault h))
    | label l => cases h
    | ifGoto c l => exact (hostIfGoto_fault h).imp_right fun hl => .inr ⟨c, l, rfl, hl⟩
    | draw k v =>
      exact (hostDraw_fault h).imp_right fun ⟨x, hx⟩ => .inl ⟨v, x, .inr ⟨k, rfl⟩, hx⟩

/-- A well-formed value is one that a register can hold when the bound names' values are (rule R207). -/
theorem HostVal.eval_lt {w : OpWidth} {bound : List Nat} {v : HostVal} {x : Nat}
    {names : List (Nat × Nat)} (hwf : v.wf w bound = true)
    (hnames : ∀ p ∈ names, p.2 < 2 ^ w.bits) (hv : v.eval names = some x) : x < 2 ^ w.bits := by
  cases v with
  | num y =>
    simp only [HostVal.wf, decide_eq_true_iff] at hwf
    simp only [HostVal.eval, Option.some.injEq] at hv
    exact hv ▸ hwf
  | name k => exact hnames _ (lookupName_mem hv)

/-- The labels a script defines are those of its label statements. -/
theorem label_mem_of_mem_definedLabels {l : Nat} {script : List Stmt}
    (h : l ∈ definedLabels script) : Stmt.label l ∈ script := by
  induction script with
  | nil => simp [definedLabels] at h
  | cons st rest ih =>
    cases st with
    | label l' =>
      simp only [definedLabels, List.mem_cons] at h
      rcases h with rfl | h
      · exact List.mem_cons_self
      · exact List.mem_cons_of_mem _ (ih h)
    | _ => exact List.mem_cons_of_mem _ (ih h)

/-- Each statement of a well-formed script is well formed. -/
theorem stmt_wf_of_scriptWf {w : OpWidth} {script : List Stmt} {p : Nat} {st : Stmt}
    (h : scriptWf w script = true) (hst : script[p]? = some st) : st.wf w script = true := by
  rw [scriptWf, Bool.and_eq_true, List.all_eq_true] at h
  exact h.1 st (List.mem_of_getElem? hst)

/-- An `if` of a well-formed script goes to a label that is found. -/
theorem findLabel_ne_none_of_wf {w : OpWidth} {script : List Stmt} {c : Cond} {l : Nat}
    (h : (Stmt.ifGoto c l).wf w script = true) : findLabel l script ≠ none := by
  simp only [Stmt.wf, Bool.and_eq_true, List.contains_iff_mem] at h
  exact Option.isSome_iff_ne_none.1 (findLabel_isSome (label_mem_of_mem_definedLabels h.1))

/-- Settles O59: a well-formed script's values fit the registers and its labels are defined. -/
theorem wellFormedScriptsFaultOnlyOnUnreadNames :
    Obligations.WellFormedScriptsFaultOnlyOnUnreadNames := by
  intro w m f hi hwf hstep
  rw [step_eq, liftOutcome_fault_iff] at hstep
  rcases hostTurn_fault (hostTurn_of_stepM_fault hstep) with
    hf | ⟨v, x, hst, hv, hx⟩ | ⟨c, l, hst, hl⟩
  · exact hf
  · have hval : v.wf w (boundNames m.host.script) = true := by
      rcases hst with ⟨r, hst⟩ | ⟨k, hst⟩
      · exact stmt_wf_of_scriptWf hwf hst
      · exact stmt_wf_of_scriptWf hwf hst
    exact absurd hx (HostVal.eval_lt hval hi.names hv).not_ge
  · exact absurd hl (findLabel_ne_none_of_wf (stmt_wf_of_scriptWf hwf hst))

end Sys2Proof.Machine
end

section
/-! The engine step of a command: where it is enabled, which command it is, and its frame. -/

namespace Sys2Proof.Machine

/-- `exec` refuses a step that `eng.fsm` does not enable (rule R103). -/
theorem exec_refused_of_not_enabled {i : Instr} {w : OpWidth} {m : Mach w.bits}
    (h : ¬ (blockStep i m.blk).isSome = true) :
    exec i ⟨w, m⟩ = .refused .engineStepNotEnabled := by
  rw [exec_eq, Option.not_isSome_iff_eq_none.1 h, engineOutcome_none]

/-- Settles O7: a command's step is enabled at `CHECK` and in its own loop only. -/
theorem noEngineStepOfACommandElsewhere : Obligations.NoEngineStepOfACommandElsewhere := by
  intro w m
  exact ⟨fun hc hl => exec_refused_of_not_enabled (by simp [blockStep_isSome_iff, hc, hl]),
    fun hc hl => exec_refused_of_not_enabled (by simp [blockStep_isSome_iff, hc, hl]),
    fun hc hl => exec_refused_of_not_enabled (by simp [blockStep_isSome_iff, hc, hl]),
    fun hc => exec_refused_of_not_enabled (by simp [blockStep_isSome_iff, hc])⟩

/-- Settles O4: the step is the engine's turn, which chooses its command by `eng.fsm` and, at `CHECK`, by
the latched word. -/
theorem stepRunsTheDecodedCommand : Obligations.StepRunsTheDecodedCommand := by
  intro w m hnext
  rw [step_of_engineIsNext w hnext]
  refine ⟨fun i hf hd => ?_, fun hf => ?_, fun hf => ?_, fun hf => ?_⟩
  · simp only [engineTurn, Mach.turnUsed_blk, hf, hd]
  all_goals simp only [engineTurn, Mach.turnUsed_blk, hf]

/-- Settles O18: a step completes the command, or leaves the register file and stays busy. -/
theorem commandStepFrame : Obligations.CommandStepFrame := by
  intro i w m t h
  obtain ⟨b, hb, rfl⟩ := (exec_next_iff i w m t).1 h
  refine ⟨b, rfl, ?_⟩
  rcases blockStep_cases hb with ⟨err, r, aux, it, rfl⟩ | ⟨hregs, hbusy, hcmd, hrc, hla, hlb, hlc⟩
  · exact ⟨rfl, rfl, rfl, rfl, rfl, rfl, rfl, rfl, rfl, rfl, rfl, fun hbusy => absurd rfl hbusy,
      fun _ => rfl⟩
  · rw [hregs]
    exact ⟨rfl, rfl, rfl, rfl, rfl, rfl, hcmd, hrc, hla, hlb, hlc, fun _ => rfl,
      fun hidle => absurd hidle hbusy⟩

end Sys2Proof.Machine
end

section
/-! The port writes while the engine is idle and while it is busy. -/

namespace Sys2Proof.Machine

variable {n : Nat}

/-- Settles O20: an idle block accepts the word, whether it decodes or not. -/
theorem cmdWriteWhileIdleIsAccepted : Obligations.CmdWriteWhileIdleIsAccepted := by
  intro w b v hidle
  rw [portWrite_4]
  rcases b.writeCmd_cases v with ⟨-, e⟩ | ⟨hbusy, -⟩
  · exact e
  · exact absurd hidle hbusy

/-- Settles O21: a busy block drops the word. -/
theorem cmdWriteWhileBusyIsDropped : Obligations.CmdWriteWhileBusyIsDropped := by
  intro w b v hbusy
  rw [portWrite_4]
  rcases b.writeCmd_cases v with ⟨hidle, -⟩ | ⟨-, e⟩
  · exact absurd hidle hbusy
  · exact e

/-- A port write that is neither a soft reset nor an acceptance leaves the engine and the completion
values (rule R109). -/
theorem portWrite_frame {b : Block n} {idx : BitVec 4} {v : Word n}
    (haccept : ¬ (idx = 0x4#4 ∧ b.eng.fsm = .idle)) (hreset : ¬ (idx = 0x2#4 ∧ v.getLsbD 2 = true)) :
    (portWrite b idx v).eng = b.eng ∧ (portWrite b idx v).regs.result = b.regs.result ∧
      (portWrite b idx v).regs.aux = b.regs.aux ∧ (portWrite b idx v).regs.iter = b.regs.iter ∧
      (portWrite b idx v).regs.err = b.regs.err := by
  rcases portWrite_cases b idx v with ⟨hi, hv, -⟩ | ⟨hi, hidle, -⟩ | ⟨heng, hres, haux, hit, herr, -⟩
  · exact absurd ⟨hi, hv⟩ hreset
  · exact absurd ⟨hi, hidle⟩ haccept
  · exact ⟨heng, hres, haux, hit, herr⟩

/-- Settles O22: every other port write is a change of the register file alone. -/
theorem onlyAcceptanceAndResetReachTheEngine : Obligations.OnlyAcceptanceAndResetReachTheEngine :=
  fun _ _ _ _ haccept hreset => (portWrite_frame haccept hreset).1

/-- Settles O23: the write leaves the engine, and the engine alone decides what the step does. -/
theorem portWritesDoNotDisturbARunningCommand :
    Obligations.PortWritesDoNotDisturbARunningCommand := by
  intro i w m b idx v hbusy hreset h
  obtain ⟨heng, hres, haux, hit, herr⟩ :=
    portWrite_frame (fun hidle => hbusy hidle.2) hreset
  obtain ⟨b', hb', heng', hregs⟩ := blockStep_congr heng ((exec_next_setBlk_iff i w m b).1 h)
  refine ⟨b', (exec_next_setBlk_iff i w (m.setBlk (portWrite m.blk idx v)) b').2 hb', heng', ?_⟩
  rcases hregs with ⟨hb, hkeep, hgoes⟩ | ⟨-, hdone, -⟩
  · rw [hb, hkeep]
    exact ⟨hres, haux, hit, herr, fun hidle => absurd hidle hgoes⟩
  · rw [hdone]
    exact ⟨rfl, rfl, rfl, rfl, fun _ => rfl⟩

end Sys2Proof.Machine
end

section
/-! Where a step is refused (rule R195). -/

namespace Sys2Proof.Machine

variable {n : Nat}

theorem hostWr_ne_refused (m : Mach n) (r : Reg) (v : HostVal) (e : Refusal) :
    hostWr m r v ≠ .refused e := by
  unfold hostWr
  split
  · simp
  · split <;> simp

theorem hostPoll_ne_refused (m : Mach n) (f : Field) (v : HostVal) (e : Refusal) :
    hostPoll m f v ≠ .refused e := by
  unfold hostPoll
  split
  · simp
  · split <;> simp

theorem hostIfGoto_ne_refused (m : Mach n) (c : Cond) (l : Nat) (e : Refusal) :
    hostIfGoto m c l ≠ .refused e := by
  unfold hostIfGoto
  split
  · simp
  · simp
  · split <;> simp

theorem hostDraw_ne_refused (m : Mach n) (k : Nat) (v : HostVal) (e : Refusal) :
    hostDraw m k v ≠ .refused e := by
  unfold hostDraw
  split
  · simp
  · split <;> simp

/-- A port operation that is itself not refused is refused in reset only. -/
theorem Mach.of_portTurn_refused {m : Mach n} {o : Host.Outcome (Mach n) Fault Refusal} {e : Refusal}
    (h : m.portTurn o = .refused e) (ho : o ≠ .refused e) :
    m.resetIn = true ∧ e = .portDuringHardReset := by
  cases hr : m.resetIn with
  | true => rw [Mach.portTurn_inReset hr] at h; cases h; exact ⟨rfl, rfl⟩
  | false => rw [Mach.portTurn_released hr] at h; exact absurd h ho

/-- The host's turn is refused only for a port operation in reset. -/
theorem hostTurn_refused {m : Mach n} {e : Refusal} (h : hostTurn m = .refused e) :
    m.resetIn = true ∧ e = .portDuringHardReset := by
  unfold hostTurn at h
  split at h
  case h_1 => cases h
  case h_2 r v _ => exact Mach.of_portTurn_refused h (hostWr_ne_refused m r v e)
  case h_3 => exact Mach.of_portTurn_refused h (by simp [hostRd])
  case h_4 f v _ => exact Mach.of_portTurn_refused h (hostPoll_ne_refused m f v e)
  case h_5 => cases h
  case h_6 c l _ => exact absurd h (hostIfGoto_ne_refused m c l e)
  case h_7 k v _ => exact absurd h (hostDraw_ne_refused m k v e)

/-- A step is refused only on the host's turn, for a port operation in reset. -/
theorem stepM_refused {m : Mach n} {e : Refusal} (h : stepM m = .refused e) :
    m.hostIsNext ∧ m.resetIn = true ∧ e = .portDuringHardReset := by
  cases hm : m.mover with
  | due => exact absurd hm m.mover_ne_due
  | host => rw [stepM_of_hostIsNext hm] at h; exact ⟨hm, hostTurn_refused (m := m.turnUsed) h⟩
  | engine =>
    simp only [stepM, hm, turnM] at h
    split_ifs at h
    rcases engineTurnM_cases m.turnUsed with ⟨-, e⟩ | ⟨-, b, e, -⟩ <;> rw [e] at h <;> cases h
  | assertReset => rw [stepM, hm] at h; cases h
  | releaseReset => rw [stepM, hm] at h; cases h

end Sys2Proof.Machine
end

section
/-! Every running command completes. The machine goes to an engine step that completes the command by a
pair that falls lexicographically: the engine steps the command has left, and the turns that come before
the next one that is due. -/

namespace Sys2Proof.Machine

variable {n : Nat}

/-! ### The command that runs -/

/-- Two engines have the same command latched: its word, `RANGE_CHK` and the operands (rule R100). -/
structure Engine.SameCommand (d e : Engine n) : Prop where
  cmd : d.cmd = e.cmd
  rc : d.rc = e.rc
  la : d.la = e.la
  lb : d.lb = e.lb
  lc : d.lc = e.lc

theorem Engine.SameCommand.refl (e : Engine n) : e.SameCommand e := ⟨rfl, rfl, rfl, rfl, rfl⟩

theorem Engine.SameCommand.trans {c d e : Engine n} (h : c.SameCommand d) (h' : d.SameCommand e) :
    c.SameCommand e :=
  ⟨h.cmd.trans h'.cmd, h.rc.trans h'.rc, h.la.trans h'.la, h.lb.trans h'.lb, h.lc.trans h'.lc⟩

/-- What a command delivers depends on the latched command alone. -/
theorem Delivered.of_sameCommand {r : Regs n} {d e : Engine n} (h : Delivered r d)
    (hs : d.SameCommand e) : Delivered r e := by
  simpa only [Delivered, DeliveredGcd, DeliveredInv, DeliveredModexp, DeliveredModmul,
    hs.cmd, hs.rc, hs.la, hs.lb, hs.lc] using h

/-- An engine step completes the latched command or stays busy with it (rules R103, R106). -/
theorem sameCommand_of_blockStep {i : Instr} {b c : Block n} (h : blockStep i b = some c) :
    c.eng.SameCommand b.eng ∧ (c.eng.fsm = .idle → c.regs.done = true) := by
  rcases blockStep_cases h with ⟨err, r, aux, it, rfl⟩ | ⟨-, hbusy, hcmd, hrc, hla, hlb, hlc⟩
  · exact ⟨⟨rfl, rfl, rfl, rfl, rfl⟩, fun _ => rfl⟩
  · exact ⟨⟨hcmd, hrc, hla, hlb, hlc⟩, fun hidle => absurd hidle hbusy⟩

/-! ### The engine steps left -/

/-- A loop iterates at most `2·OPW` times (rules R38, R143). -/
theorem Engine.stepsLeft_le (e : Engine n) : e.stepsLeft ≤ 2 * n := by
  have hrem := euclidIters_le n (a := e.a.toNat) e.b.isLt
  have hexp := bitlen_le e.exp.isLt
  unfold Engine.stepsLeft
  split <;> omega

/-- A bound on the engine steps left, at `CHECK` too, where the loop is still to come. -/
def Engine.stepsToCome (e : Engine n) : Nat := if e.fsm = .check then 2 * n + 1 else e.stepsLeft

theorem Engine.stepsToCome_loop {e : Engine n} (h : e.fsm ≠ .check) : e.stepsToCome = e.stepsLeft :=
  if_neg h

/-- The check step leaves `CHECK` (rule R103). -/
theorem fsm_ne_check_of_checkStep {i : Instr} {b c : Block n} (h : blockStep i b = some c)
    (hf : b.eng.fsm = .check) : c.eng.fsm ≠ .check := by
  cases i with simp only [blockStep] at h
  | gcd => rw [gcdBlock_check hf] at h; cases h; simp [gcdCheck]
  | inv => rw [invBlock_check hf] at h; cases h; simp [invCheck]
  | modexp =>
    rw [modexpBlock_check hf] at h
    cases h
    simp only [modexpCheck]
    split_ifs <;> simp [Block.fail]
  | modmul =>
    rw [modmulBlock_check hf] at h
    cases h
    simp only [modmulCheck]
    split_ifs <;> simp [Block.fail]

/-- An engine step that does not complete leaves fewer to come (rule R107). -/
theorem stepsToCome_lt_of_blockStep {i : Instr} {b c : Block n} (h : blockStep i b = some c)
    (hc : c.eng.fsm ≠ .idle) : c.eng.stepsToCome < b.eng.stepsToCome := by
  by_cases hf : b.eng.fsm = .check
  · have hle := c.eng.stepsLeft_le
    rw [Engine.stepsToCome_loop (fsm_ne_check_of_checkStep h hf), Engine.stepsToCome, if_pos hf]
    omega
  · rcases stepsLeft_step h hf with ⟨-, hidle, -⟩ | ⟨hfsm, hleft⟩
    · exact absurd hidle hc
    · rw [Engine.stepsToCome_loop hf, Engine.stepsToCome_loop (hfsm ▸ hf)]
      omega

/-! ### The turns before the next due one -/

/-- The turns known and the next part of the interleaving, which ends with one that is due (log entry 5). -/
def Mach.turnsToCome (m : Mach n) : List Turn :=
  m.sched ++ (Config.turnsBefore m.parts ++ [.due])

/-- How many turns come before the next due one. -/
def Mach.turnsToDue (m : Mach n) : Nat := m.turnsToCome.idxOf .due

/-- Using up a turn takes the first turn off those to come, and may make more of them known. -/
theorem Mach.turnsToCome_turnUsed (m : Mach n) :
    ∃ rest more, m.turnsToCome = m.upcoming.1 :: rest ∧ m.turnUsed.turnsToCome = rest ++ more := by
  unfold Mach.turnsToCome Mach.turnUsed Mach.upcoming
  cases hs : m.sched with
  | cons u us => exact ⟨_, [], rfl, by simp⟩
  | nil =>
    cases hp : Config.turnsBefore m.parts with
    | nil => exact ⟨[], _, rfl, rfl⟩
    | cons u us => exact ⟨_, _, rfl, rfl⟩

/-- A turn that is not due brings the next due one nearer (rule R108). -/
theorem Mach.turnsToDue_turnUsed_lt {m : Mach n} (h : m.upcoming.1 ≠ .due) :
    m.turnUsed.turnsToDue < m.turnsToDue := by
  obtain ⟨rest, more, hm, hu⟩ := m.turnsToCome_turnUsed
  have hmem : Turn.due ∈ rest := by
    have hdue : Turn.due ∈ m.turnsToCome := by simp [Mach.turnsToCome]
    rw [hm, List.mem_cons] at hdue
    exact hdue.resolve_left (Ne.symm h)
  rw [Mach.turnsToDue, Mach.turnsToDue, hm, hu, List.idxOf_append_of_mem hmem,
    List.idxOf_cons_ne rest h]
  exact Nat.lt_succ_self _

/-! ### One step of a machine with a running command -/

/-- What a run of a command comes down to: the engine steps to come, then the turns before the due one. -/
def Mach.progress (m : Mach n) : ℕ ×ₗ ℕ := toLex (m.blk.eng.stepsToCome, m.turnsToDue)

/-- The command of `m` has ended in `t`: completed, or aborted by a reset (rules R106, R192). -/
def Mach.EndsIn (m t : Mach n) : Prop :=
  t.blk.eng.fsm = .idle ∧
    ((t.blk.regs.done = true ∧ t.blk.eng.SameCommand m.blk.eng) ∨ t.blk = Block.reset n)

/-- The command of `m` still runs in `t`, which is nearer to its end. -/
structure Mach.GoesOnIn (m t : Mach n) : Prop where
  released : t.resetIn = false
  busy : t.blk.eng.fsm ≠ .idle
  same : t.blk.eng.SameCommand m.blk.eng
  nearer : t.progress < m.progress

theorem Mach.endsIn_of_reset {m t : Mach n} (h : t.blk = Block.reset n) : m.EndsIn t :=
  ⟨by rw [h]; rfl, .inr h⟩

/-- The engine's turn ends the command or leaves fewer engine steps to come. -/
theorem stepM_running_engine {m : Mach n} (h : m.engineIsNext) :
    ∃ t, stepM m = .next t ∧ (m.EndsIn t ∨ m.GoesOnIn t) := by
  have ⟨hr, hbusy, _⟩ := h
  rw [stepM_of_engineIsNext h]
  rcases engineTurnM_cases m.turnUsed with ⟨hidle, -⟩ | ⟨-, b, e, ⟨i, hb, -⟩ | ⟨-, -, rfl⟩⟩
  · exact absurd hidle hbusy
  · obtain ⟨hsame, hdone⟩ := sameCommand_of_blockStep hb
    refine ⟨_, e, ?_⟩
    by_cases hf : b.eng.fsm = .idle
    · exact .inl ⟨hf, .inl ⟨hdone hf, hsame⟩⟩
    · exact .inr ⟨hr, hf, hsame,
        Prod.Lex.toLex_lt_toLex.2 (.inl (stepsToCome_lt_of_blockStep hb hf))⟩
  · exact ⟨_, e, .inl ⟨rfl, .inl ⟨rfl, rfl, rfl, rfl, rfl, rfl⟩⟩⟩

/-- A turn of another mover that leaves the engine brings the engine's own due turn nearer. -/
theorem Mach.goesOnIn_of_eng_eq {m t : Mach n} (hm : m.mover ≠ .engine) (hf : m.blk.eng.fsm ≠ .idle)
    (hr : t.resetIn = false) (heng : t.blk.eng = m.blk.eng)
    (hturns : t.turnsToCome = m.turnUsed.turnsToCome) : m.GoesOnIn t := by
  have hdue : m.turnUsed.turnsToDue < m.turnsToDue :=
    Mach.turnsToDue_turnUsed_lt fun hdue => hm (Mach.mover_of_due_busy hdue hf)
  refine ⟨hr, heng ▸ hf, heng ▸ .refl _, Prod.Lex.toLex_lt_toLex.2 (.inr ⟨by rw [heng], ?_⟩)⟩
  rwa [Mach.turnsToDue, hturns]

/-- Any other step that goes on resets the block or leaves the engine (rules R109, R192). -/
theorem stepM_running_other {m t : Mach n} (hr : m.resetIn = false) (hf : m.blk.eng.fsm ≠ .idle)
    (hm : m.mover ≠ .engine) (h : stepM m = .next t) : m.EndsIn t ∨ m.GoesOnIn t := by
  rcases stepM_cases h with ⟨⟨-, -, heng⟩, -⟩ | ⟨-, -, r, v, x, -, -, -, rfl⟩ | ⟨-, -, a, rfl⟩ |
    ⟨heng, -⟩ | ⟨-, rfl⟩ | ⟨-, rfl⟩
  case inl => exact absurd heng hm
  case inr.inl =>
    rcases m.blk.writeReg_cases (BitVec.ofNat n x) r with ⟨-, -, e⟩ | ⟨-, hidle, -⟩ | ⟨heng, -⟩
    · exact .inl (Mach.endsIn_of_reset e)
    · exact absurd hidle hf
    · exact .inr (Mach.goesOnIn_of_eng_eq hm hf hr heng rfl)
  case inr.inr.inl => exact .inr (Mach.goesOnIn_of_eng_eq hm hf hr rfl rfl)
  case inr.inr.inr.inl => exact absurd heng hm
  case inr.inr.inr.inr.inl => exact .inl (Mach.endsIn_of_reset rfl)
  case inr.inr.inr.inr.inr => exact .inl (Mach.endsIn_of_reset rfl)

/-- Every step of a machine with a running command faults, ends the command or goes on nearer to its end. -/
theorem stepM_running {m : Mach n} (hr : m.resetIn = false) (hf : m.blk.eng.fsm ≠ .idle) :
    (∃ f, stepM m = .fault f) ∨ ∃ t, stepM m = .next t ∧ (m.EndsIn t ∨ m.GoesOnIn t) := by
  by_cases hm : m.mover = .engine
  · exact .inr (stepM_running_engine ⟨hr, hf, hm⟩)
  · cases h : stepM m with
    | next t => exact .inr ⟨t, rfl, stepM_running_other hr hf hm h⟩
    | fault f => exact .inl ⟨f, rfl⟩
    | refused e =>
      obtain ⟨-, hreset, -⟩ := stepM_refused h
      simp [hr] at hreset

/-! ### The run -/

theorem stepsM_succ_of_next {m t : Mach n} (h : stepM m = .next t) (k : Nat) :
    stepsM (k + 1) m = stepsM k t := by simp only [stepsM, h]

/-- The invariant holds along a run. -/
theorem inv_of_stepsM (hn : 32 ≤ n) (k : Nat) {m t : Mach n} (hi : m.Inv)
    (h : stepsM k m = .next t) : t.Inv := by
  induction k generalizing m with
  | zero => cases h; exact hi
  | succ k ih =>
    cases hm : stepM m with
    | next u => rw [stepsM_succ_of_next hm] at h; exact ih (hi.stepM hn hm) h
    | fault f => simp only [stepsM, hm] at h; cases h
    | refused e => simp only [stepsM, hm] at h; cases h

/-- The engine is busy in every state of the run before its `k`-th. -/
def Mach.BusyBefore (m : Mach n) (k : Nat) : Prop :=
  ∀ j < k, ∃ u, stepsM j m = .next u ∧ u.blk.eng.fsm ≠ .idle

theorem Mach.busyBefore_one {m : Mach n} (hf : m.blk.eng.fsm ≠ .idle) : m.BusyBefore 1 := by
  intro j hj
  obtain rfl : j = 0 := by omega
  exact ⟨m, rfl, hf⟩

theorem Mach.BusyBefore.succ {m t : Mach n} {k : Nat} (hf : m.blk.eng.fsm ≠ .idle)
    (hstep : stepM m = .next t) (h : t.BusyBefore k) : m.BusyBefore (k + 1) := by
  intro j hj
  cases j with
  | zero => exact ⟨m, rfl, hf⟩
  | succ j => rw [stepsM_succ_of_next hstep]; exact h j (by omega)

theorem Mach.EndsIn.of_sameCommand {m u t : Mach n} (h : u.EndsIn t)
    (hs : u.blk.eng.SameCommand m.blk.eng) : m.EndsIn t :=
  ⟨h.1, h.2.imp_left fun ⟨hdone, hsame⟩ => ⟨hdone, hsame.trans hs⟩⟩

/-- From every machine with a running command the run comes to the command's end, unless the host faults. -/
theorem exists_stepsM_endsIn (m : Mach n) (hr : m.resetIn = false) (hf : m.blk.eng.fsm ≠ .idle) :
    ∃ k, 0 < k ∧ ((∃ f, stepsM k m = .fault f) ∨ ∃ t, stepsM k m = .next t ∧ m.EndsIn t) ∧
      m.BusyBefore k := by
  rcases stepM_running hr hf with ⟨f, hfault⟩ | ⟨u, hstep, hend | hon⟩
  · exact ⟨1, Nat.one_pos, .inl ⟨f, by simp only [stepsM, hfault]⟩, Mach.busyBefore_one hf⟩
  · exact ⟨1, Nat.one_pos, .inr ⟨u, stepsM_succ_of_next hstep 0, hend⟩, Mach.busyBefore_one hf⟩
  · obtain ⟨k, -, hk, hbusy⟩ := exists_stepsM_endsIn u hon.released hon.busy
    refine ⟨k + 1, k.succ_pos, ?_, hbusy.succ hf hstep⟩
    rw [stepsM_succ_of_next hstep]
    exact hk.imp_right fun ⟨t, ht, hend⟩ => ⟨t, ht, hend.of_sameCommand hon.same⟩
termination_by m.progress
decreasing_by exact hon.nearer

/-- Settles O28: the run comes to the command's end, where the invariant says that `DONE = 1` announces
what the latched command gives. -/
theorem everyRunningCommandCompletes : Obligations.EveryRunningCommandCompletes := by
  intro w m hr hf
  obtain ⟨k, hpos, hk, hbusy⟩ := exists_stepsM_endsIn m hr hf
  refine ⟨k, hpos, ?_, fun j hj => ?_⟩
  · rcases hk with ⟨f, hfault⟩ | ⟨t, ht, hidle, hend⟩
    · exact .inl ⟨f, by rw [steps_eq, hfault, liftOutcome_fault]⟩
    · refine .inr ⟨t, (steps_next_iff k w m t).2 ht, hidle, hend.imp_left ?_⟩
      rintro ⟨hdone, hsame⟩
      have delivers (hi : m.Inv) : Delivered t.blk.regs t.blk.eng :=
        (inv_of_stepsM w.bits_ge k hi ht).block.delivered hdone
      exact ⟨hdone, fun hi => (delivers hi).of_sameCommand hsame⟩
  · obtain ⟨u, hu, hubusy⟩ := hbusy j hj
    exact ⟨u, (steps_next_iff j w m u).2 hu, hubusy⟩

end Sys2Proof.Machine
end

section
/-! The steps of `GCD` and the working registers each command writes. -/

namespace Sys2Proof.Machine

variable {n : Nat}

/-- Settles O8: the check step loads the two latched operands. -/
theorem gcdCheckStepLoadsTheOperands : Obligations.GcdCheckStepLoadsTheOperands := by
  intro w m hf
  exact ⟨decode_eq_some_iff_toNat m.blk.eng.cmd .gcd,
    (exec_next_setBlk_iff .gcd w m _).2 (gcdBlock_check hf)⟩

/-- Settles O9: the loop step branches on `eng.b`, and the remainder of two words does not wrap. -/
theorem gcdLoopStepIteratesOrCompletes : Obligations.GcdLoopStepIteratesOrCompletes := by
  intro w m hf
  have hstep : blockStep .gcd m.blk = some (gcdLoopStep m.blk) := gcdBlock_loop hf
  refine ⟨fun hb => (exec_next_setBlk_iff .gcd w m _).2 ?_,
    fun hb => (exec_next_setBlk_iff .gcd w m _).2 ?_⟩
  · rw [hstep, gcdLoopStep_done hb]
    rfl
  · rw [hstep, gcdLoopStep_iterate hb, word_mod]

/-! ### What each command writes in the engine -/

/-- Of the engine, a step of `GCD` writes the sequencing state, `a`, `b` and the counter (rules R120, R121). -/
theorem gcdBlock_eng {b c : Block n} (h : gcdBlock b = some c) :
    ∃ f x y k, c.eng = { b.eng with fsm := f, a := x, b := y, cnt := k } := by
  simp only [gcdBlock] at h
  split at h <;> cases h
  · exact ⟨_, _, _, _, rfl⟩
  · by_cases hb : b.eng.b = 0
    · rw [gcdLoopStep_done hb]; exact ⟨_, _, _, _, rfl⟩
    · rw [gcdLoopStep_iterate hb]; exact ⟨_, _, _, _, rfl⟩

/-- Of the engine, a step of `INV` writes what a step of `GCD` does and the two coefficients (rules R130,
R131, R133). -/
theorem invBlock_eng {b c : Block n} (h : invBlock b = some c) :
    ∃ f x y u v k, c.eng = { b.eng with fsm := f, a := x, b := y, x0 := u, x1 := v, cnt := k } := by
  simp only [invBlock] at h
  split at h <;> cases h
  · exact ⟨_, _, _, _, _, _, rfl⟩
  · by_cases hb : b.eng.b = 0
    · rw [invLoopStep_done hb]; exact ⟨_, _, _, _, _, _, rfl⟩
    · rw [invLoopStep_iterate hb]; exact ⟨_, _, _, _, _, _, rfl⟩

/-- Of the engine, a step of `MODEXP` writes the sequencing state, the accumulator, the base, the exponent
and the counter (rules R140, R142). -/
theorem modexpBlock_eng {b c : Block n} (h : modexpBlock b = some c) :
    ∃ f x y z k, c.eng = { b.eng with fsm := f, acc := x, base := y, exp := z, cnt := k } := by
  simp only [modexpBlock] at h
  split at h <;> cases h
  · simp only [modexpCheck]
    split_ifs <;> exact ⟨_, _, _, _, _, rfl⟩
  · by_cases hb : b.eng.exp = 0
    · rw [modexpLoopStep_done hb]; exact ⟨_, _, _, _, _, rfl⟩
    · rw [modexpLoopStep_iterate hb]; exact ⟨_, _, _, _, _, rfl⟩

/-- Of the engine, the one step of `MODMUL` writes the sequencing state alone (rule R147). -/
theorem modmulBlock_eng {b c : Block n} (h : modmulBlock b = some c) :
    ∃ f, c.eng = { b.eng with fsm := f } := by
  simp only [modmulBlock] at h
  split at h <;> cases h
  simp only [modmulCheck]
  split_ifs <;> exact ⟨_, rfl⟩

/-- Settles O19: the working registers asked for are none of those the command writes. -/
theorem workingRegisterFrame : Obligations.WorkingRegisterFrame := by
  intro w m b
  refine ⟨fun h => ?_, fun h => ?_, fun h => ?_, fun h => ?_⟩ <;>
    replace h := (exec_next_setBlk_iff _ w m b).1 h
  · obtain ⟨f, x, y, k, e⟩ := gcdBlock_eng h
    rw [e]
    exact ⟨rfl, rfl, rfl, rfl, rfl⟩
  · obtain ⟨f, x, y, u, v, k, e⟩ := invBlock_eng h
    rw [e]
    exact ⟨rfl, rfl, rfl⟩
  · obtain ⟨f, x, y, z, k, e⟩ := modexpBlock_eng h
    rw [e]
    exact ⟨rfl, rfl, rfl, rfl⟩
  · obtain ⟨f, e⟩ := modmulBlock_eng h
    rw [e]
    exact ⟨rfl, rfl, rfl, rfl, rfl, rfl, rfl, rfl⟩

end Sys2Proof.Machine
end

section
/-! A whole command under known engine turns. The loop takes as many of them as it has iterations left and
one that completes it; at completion the invariant of the loop says what has been delivered. -/

namespace Sys2Proof.Machine

variable {n : Nat}

/-- The command running in `b` has completed in `c`: the engine is idle, of the register file the completion
registers alone are written, and they hold what the command gives (rule R106). -/
structure Block.CompletesTo (b c : Block n) : Prop where
  idle : c.eng.fsm = .idle
  same : c.eng.SameCommand b.eng
  regs : c.regs = { b.regs with
    result := c.regs.result, aux := c.regs.aux, iter := c.regs.iter, err := c.regs.err, done := true }
  delivered : Delivered c.regs c.eng

/-- The command running in `b` goes on in `c`: the register file is untouched (rule R103). -/
structure Block.GoesOnTo (b c : Block n) : Prop where
  busy : c.eng.fsm ≠ .idle
  same : c.eng.SameCommand b.eng
  regs : c.regs = b.regs
  inv : EngineInv c.eng

/-- A command that goes on and completes later completes the command it was. -/
theorem Block.GoesOnTo.completesTo {b c d : Block n} (h : b.GoesOnTo c) (h' : c.CompletesTo d) :
    b.CompletesTo d :=
  ⟨h'.idle, h'.same.trans h.same, h.regs ▸ h'.regs, h'.delivered⟩

/-- An engine step of the latched command completes it or goes on with it. -/
theorem completesTo_or_goesOnTo (hn : 32 ≤ n) {i : Instr} {b c : Block n} (hi : EngineInv b.eng)
    (h : blockStep i b = some c) (hd : b.eng.fsm = .check → decode b.eng.cmd = some i) :
    b.CompletesTo c ∨ b.GoesOnTo c := by
  obtain ⟨hsame, -⟩ := sameCommand_of_blockStep h
  rcases engineInv_step hn hi h hd with ⟨hbusy, hinv⟩ | ⟨hidle, -, hdel⟩ <;>
    rcases blockStep_cases h with ⟨err, r, aux, it, rfl⟩ | ⟨hregs, hbusy', -⟩
  · exact absurd rfl hbusy
  · exact .inr ⟨hbusy, hsame, hregs, hinv⟩
  · exact .inl ⟨rfl, hsame, rfl, hdel⟩
  · exact absurd hidle hbusy'

/-- A known engine turn performs the step of the running command and uses the turn up (rules R68, R103). -/
theorem stepM_of_engine_cons {m : Mach n} {us : List Turn} (hr : m.resetIn = false)
    (hf : m.blk.eng.fsm ≠ .idle) (hd : m.blk.eng.fsm = .check → decode m.blk.eng.cmd ≠ none)
    (hs : m.sched = .engine :: us) :
    ∃ i c, blockStep i m.blk = some c ∧ (m.blk.eng.fsm = .check → decode m.blk.eng.cmd = some i) ∧
      stepM m = .next { m.setBlk c with sched := us } := by
  rw [stepM_of_engineIsNext ⟨hr, hf, Mach.mover_of_cons hs (by decide)⟩, Mach.turnUsed_of_cons hs]
  rcases engineTurnM_cases { m with sched := us } with
    ⟨hidle, -⟩ | ⟨-, c, hturn, ⟨i, hc, hdec⟩ | ⟨hcheck, hnone, -⟩⟩
  · exact absurd hidle hf
  · exact ⟨i, c, hc, hdec, hturn⟩
  · exact absurd hnone (hd hcheck)

/-- Engine turns, one for each iteration left and one more, complete a command in its loop (rule R107). -/
theorem stepsM_loop (hn : 32 ≤ n) {rest : List Turn} (k : Nat) {m : Mach n} (hr : m.resetIn = false)
    (hf : m.blk.eng.fsm ≠ .idle) (hl : m.blk.eng.fsm ≠ .check) (hi : EngineInv m.blk.eng)
    (hk : m.blk.eng.stepsLeft = k) (hs : m.sched = List.replicate (k + 1) .engine ++ rest) :
    ∃ b, stepsM (k + 1) m = .next { m.setBlk b with sched := rest } ∧ m.blk.CompletesTo b := by
  induction k generalizing m with
  | zero =>
    obtain ⟨i, c, hc, hd, hstep⟩ := stepM_of_engine_cons hr hf (absurd · hl) hs
    have hidle : c.eng.fsm = .idle := by
      rcases stepsLeft_step hc hl with ⟨-, hidle, -⟩ | ⟨-, hleft⟩
      · exact hidle
      · omega
    exact ⟨c, stepsM_succ_of_next hstep 0,
      (completesTo_or_goesOnTo hn hi hc hd).resolve_right fun h => h.busy hidle⟩
  | succ k ih =>
    obtain ⟨i, c, hc, hd, hstep⟩ := stepM_of_engine_cons hr hf (absurd · hl) hs
    obtain ⟨hfsm, hleft⟩ : c.eng.fsm = m.blk.eng.fsm ∧ c.eng.stepsLeft = k := by
      rcases stepsLeft_step hc hl with ⟨hnone, -⟩ | ⟨hfsm, hleft⟩
      · omega
      · exact ⟨hfsm, by omega⟩
    have hgoes := (completesTo_or_goesOnTo hn hi hc hd).resolve_left fun h => hf (hfsm ▸ h.idle)
    obtain ⟨b, hrun, hb⟩ := ih (m := { m.setBlk c with sched := _ }) hr hgoes.busy (hfsm ▸ hl)
      hgoes.inv hleft rfl
    exact ⟨b, (stepsM_succ_of_next hstep (k + 1)).trans hrun, hgoes.completesTo hb⟩

/-- From `CHECK` of a command whose check step enters its loop, engine turns complete it: one for the check
step, and those of the loop (rules R105, R107). -/
theorem stepsM_command (hn : 32 ≤ n) {rest : List Turn} {k : Nat} {i : Instr} {m : Mach n} {c : Block n}
    (hr : m.resetIn = false) (hf : m.blk.eng.fsm = .check) (hd : decode m.blk.eng.cmd = some i)
    (h0 : m.blk.eng.cnt = 0) (hc : blockStep i m.blk = some c) (hloop : c.eng.fsm ≠ .idle)
    (hk : c.eng.stepsLeft = k) (hs : m.sched = List.replicate (k + 2) .engine ++ rest) :
    ∃ b, stepsM (k + 2) m = .next { m.setBlk b with sched := rest } ∧ m.blk.CompletesTo b := by
  have hi : EngineInv m.blk.eng := ⟨fun _ => h0, by simp [hf], by simp [hf], by simp [hf]⟩
  obtain ⟨j, c', hc', hj, hstep⟩ := stepM_of_engine_cons hr (by simp [hf]) (by simp [hd]) hs
  obtain rfl : i = j := Option.some.inj (hd.symm.trans (hj hf))
  obtain rfl : c = c' := Option.some.inj (hc.symm.trans hc')
  have hgoes := (completesTo_or_goesOnTo hn hi hc fun _ => hd).resolve_left fun h => hloop h.idle
  obtain ⟨b, hrun, hb⟩ := stepsM_loop hn k (m := { m.setBlk c with sched := _ }) hr hloop
    (fsm_ne_check_of_checkStep hc hf) hgoes.inv hk rfl
  exact ⟨b, (stepsM_succ_of_next hstep (k + 1)).trans hrun, hgoes.completesTo hb⟩

/-- What a completed `GCD` has delivered, in terms of the command it was (rule R123). -/
theorem Block.CompletesTo.deliveredGcd {b c : Block n} (h : b.CompletesTo c)
    (hd : decode b.eng.cmd = some .gcd) : DeliveredGcd c.regs b.eng := by
  have hdel := h.delivered.of_sameCommand h.same
  simpa only [Delivered, hd] using hdel

/-- Settles O24: the remainder loop of the latched operands, and what the completed `GCD` delivers. -/
theorem gcdCommandDeliversTheGcd : Obligations.GcdCommandDeliversTheGcd := by
  intro w m rest hr hf hd h0 hs
  obtain ⟨b, hrun, hb⟩ := stepsM_command w.bits_ge hr hf hd h0 (gcdBlock_check hf)
    (by simp [gcdCheck]) rfl hs
  obtain ⟨herr, hresult, haux, hiter⟩ := hb.deliveredGcd hd
  have haux0 : b.regs.aux = 0 := BitVec.eq_of_toNat_eq (by simpa using haux)
  refine ⟨b, ?_, hb.idle, ?_, hresult, hiter⟩
  · rw [hiter]
    exact (steps_next_iff _ w m _).2 hrun
  · rw [← herr, ← haux0]
    exact hb.regs

end Sys2Proof.Machine
end

section
/-! The steps of `INV`, the bounds its invariant puts on the coefficients, and a whole `INV` command. -/

namespace Sys2Proof.Machine

variable {n : Nat}

/-- Settles O10: the check step loads the modulus, the operand and the coefficients 0 and 1. -/
theorem invCheckStepLoadsTheOperands : Obligations.InvCheckStepLoadsTheOperands := by
  intro w m hf
  exact ⟨decode_eq_some_iff_toNat m.blk.eng.cmd .inv,
    (exec_next_setBlk_iff .inv w m _).2 (invBlock_check hf)⟩

/-- Settles O11: while `eng.b` is nonzero the loop step iterates, and the new `eng.b` is the remainder. -/
theorem invLoopStepIterates : Obligations.InvLoopStepIterates := by
  intro w m hf hb
  have hstep : blockStep .inv m.blk = some (invLoopStep m.blk) := invBlock_loop hf
  have hrem := inv_remainder m.blk.eng.a m.blk.eng.b
  refine ⟨_, _, rfl, ?_, hrem, (exec_next_setBlk_iff .inv w m _).2 ?_⟩
  · have hdiv := Nat.div_add_mod' m.blk.eng.a.toNat m.blk.eng.b.toNat
    rw [hrem, eq_sub_iff_add_eq']
    exact_mod_cast hdiv
  · rw [hstep, invLoopStep_iterate hb]
    rfl

/-- The word of an integer that fits the register is that integer. -/
theorem toNat_ofInt_of_fits {d : Int} (h0 : 0 ≤ d) (hlt : d < 2 ^ n) :
    ((BitVec.ofInt n d).toNat : Int) = d := by
  obtain ⟨k, rfl⟩ := Int.eq_ofNat_of_zero_le h0
  rw [BitVec.ofInt_natCast, BitVec.toNat_ofNat, Nat.mod_eq_of_lt (by exact_mod_cast hlt)]

/-- Settles O12: with `eng.b = 0` the loop step is finalize, and the invariant bounds what it writes. -/
theorem invFinalizeCompletes : Obligations.InvFinalizeCompletes := by
  intro w m hf hb
  have hstep : blockStep .inv m.blk = some (invLoopStep m.blk) := invBlock_loop hf
  refine ⟨invResult m.blk.eng.x0 m.blk.eng.lb, _, _, rfl, rfl, toNat_ofInt_of_fits, fun hi => ?_,
    (exec_next_setBlk_iff .inv w m _).2 ?_⟩
  · obtain ⟨hnonneg, hle, -, hgcd⟩ := (hi.block.invLoop hf).final hb
    exact ⟨hnonneg, hle, hgcd⟩
  · rw [hstep, invLoopStep_done hb]
    rfl

/-- Settles O31: the determinant of the loop's invariant bounds the coefficients and the product. -/
theorem bezoutCoefficientsStayInRange : Obligations.BezoutCoefficientsStayInRange := by
  intro w m hi hf
  have hloop := hi.block.invLoop hf
  obtain ⟨hx0, hx1⟩ := hloop.bounds
  exact ⟨hx0, hx1, hloop.product_bound⟩

/-- What a completed `INV` has delivered, in terms of the command it was (rules R133, R135, R136). -/
theorem Block.CompletesTo.deliveredInv {b c : Block n} (h : b.CompletesTo c)
    (hd : decode b.eng.cmd = some .inv) : DeliveredInv c.regs b.eng := by
  have hdel := h.delivered.of_sameCommand h.same
  simpa only [Delivered, hd] using hdel

/-- Settles O25: the remainder loop on `(m, e)`, and what the completed `INV` delivers. -/
theorem invCommandDeliversTheInverse : Obligations.InvCommandDeliversTheInverse := by
  intro w m rest hr hf hd h0 hs
  obtain ⟨b, hrun, hb⟩ := stepsM_command w.bits_ge hr hf hd h0 (invBlock_check hf)
    (by simp [invCheck]) rfl hs
  obtain ⟨haux, hiter, herr, hle, hdvd, hinverse⟩ := hb.deliveredInv hd
  refine ⟨b, ?_, hb.idle, hb.regs, hiter, haux, hle, hdvd, fun hg hm => ?_, fun hbad => ?_⟩
  · rw [hiter]
    exact (steps_next_iff _ w m _).2 hrun
  · have hnone : b.regs.err = .none := herr.trans (if_pos ⟨hg, hm⟩)
    exact ⟨hnone, hinverse hnone⟩
  · exact herr.trans (if_neg fun ⟨hg, hm⟩ => hbad.elim (· hg) hm.not_gt)

end Sys2Proof.Machine
end

section
/-! The steps of `MODEXP` and `MODMUL`, the multiplier, a whole `MODEXP` command, and the round trip of
encryption and decryption. -/

namespace Sys2Proof.Machine

variable {n : Nat}

/-- Settles O16: the remainder is below the modulus, which fits a word, so nothing is truncated. -/
theorem modularMultiplierIsExact : Obligations.ModularMultiplierIsExact := by
  intro w x y m hm
  rw [modmul_toNat x y hm]
  exact ⟨rfl, Nat.mod_lt _ (toNat_pos_of_ne_zero hm)⟩

/-- The range test passes exactly when it is off or the operand is below the modulus (rule R141). -/
theorem rangeTest_passes_iff (e : Engine n) :
    ¬ (e.rc = true ∧ e.lc.toNat ≤ e.la.toNat) ↔ e.rc = false ∨ e.la.toNat < e.lc.toNat := by
  rw [not_and_or, Bool.not_eq_true, Nat.not_le]

/-- Settles O13: the check step tests the modulus, then the range, then loads. -/
theorem modexpCheckStepChecksThenLoads : Obligations.ModexpCheckStepChecksThenLoads := by
  intro w m hf
  have hstep : blockStep .modexp m.blk = some (modexpCheck m.blk) := modexpBlock_check hf
  refine ⟨decode_eq_some_iff_toNat m.blk.eng.cmd .modexp,
    fun hl => (exec_next_setBlk_iff .modexp w m _).2 ?_,
    fun hl hr hle => (exec_next_setBlk_iff .modexp w m _).2 ?_,
    fun hl hr => (exec_next_setBlk_iff .modexp w m _).2 ?_⟩
  · rw [hstep, modexpCheck_modulusZero hl]
    rfl
  · rw [hstep, modexpCheck_outOfRange hl hr hle]
    rfl
  · rw [hstep, modexpCheck_load hl ((rangeTest_passes_iff _).2 hr), word_mod, word_mod,
      word_one_toNat w.bits_ge]

/-- An iteration with a nonzero modulus, its products as numbers (rules R139, R142). -/
theorem modexpIterate_of_ne_zero {b : Block n} (hl : b.eng.lc ≠ 0) :
    modexpIterate b = { b with eng := { b.eng with
      acc := if b.eng.exp.toNat % 2 = 1
        then BitVec.ofNat n (b.eng.acc.toNat * b.eng.base.toNat % b.eng.lc.toNat) else b.eng.acc,
      base := BitVec.ofNat n (b.eng.base.toNat * b.eng.base.toNat % b.eng.lc.toNat),
      exp := BitVec.ofNat n (b.eng.exp.toNat / 2), cnt := b.eng.cnt + 1 } } := by
  simp only [modexpIterate, modmul_of_ne_zero _ _ hl, word_shiftRight_one, word_bit_zero,
    decide_eq_true_eq]

/-- Settles O14: the loop step branches on `eng.exp`, and an iteration reads the old base. -/
theorem modexpLoopStepIteratesOrCompletes : Obligations.ModexpLoopStepIteratesOrCompletes := by
  intro w m hf
  have hstep : blockStep .modexp m.blk = some (modexpLoopStep m.blk) := modexpBlock_loop hf
  refine ⟨fun hexp => (exec_next_setBlk_iff .modexp w m _).2 ?_,
    fun hexp hl => (exec_next_setBlk_iff .modexp w m _).2 ?_⟩
  · rw [hstep, modexpLoopStep_done hexp]
    rfl
  · rw [hstep, modexpLoopStep_iterate hexp, modexpIterate_of_ne_zero hl]

/-- Settles O15: the check step fails on a zero modulus and else completes with the product. -/
theorem modmulCompletesInItsCheckStep : Obligations.ModmulCompletesInItsCheckStep := by
  intro w m hf
  have hstep : blockStep .modmul m.blk = some (modmulCheck m.blk) := modmulBlock_check hf
  refine ⟨decode_eq_some_iff_toNat m.blk.eng.cmd .modmul,
    fun hl => (exec_next_setBlk_iff .modmul w m _).2 ?_,
    fun hl => (exec_next_setBlk_iff .modmul w m _).2 ?_⟩
  · rw [hstep, modmulCheck_modulusZero hl]
    rfl
  · rw [hstep, modmulCheck_multiply hl, modmul_of_ne_zero _ _ hl]
    rfl

/-- What a completed `MODEXP` has delivered, in terms of the command it was, when its checks passed
(rule R144). -/
theorem Block.CompletesTo.holds_power {b c : Block n} (h : b.CompletesTo c)
    (hd : decode b.eng.cmd = some .modexp) (hl : b.eng.lc ≠ 0)
    (hr : b.eng.rc = false ∨ b.eng.la.toNat < b.eng.lc.toNat) :
    c.regs.holds .none (b.eng.la.toNat ^ b.eng.lb.toNat % b.eng.lc.toNat) 0
      (bitlen b.eng.lb.toNat) := by
  have hdel := h.delivered.of_sameCommand h.same
  simp only [Delivered, hd, DeliveredModexp] at hdel
  rwa [if_neg (toNat_pos_of_ne_zero hl).ne', if_neg ((rangeTest_passes_iff _).2 hr)] at hdel

/-- Settles O26: the loop of the loaded exponent, and what the completed `MODEXP` delivers. -/
theorem modexpCommandDeliversThePower : Obligations.ModexpCommandDeliversThePower := by
  intro w m rest hreset hf hd h0 hl hr hs
  have hload := modexpCheck_load hl ((rangeTest_passes_iff _).2 hr)
  obtain ⟨b, hrun, hb⟩ := stepsM_command w.bits_ge hreset hf hd h0 (modexpBlock_check hf)
    (by simp [hload]) (by rw [hload]; rfl) hs
  obtain ⟨herr, hresult, haux, hiter⟩ := hb.holds_power hd hl hr
  have haux0 : b.regs.aux = 0 := BitVec.eq_of_toNat_eq (by simpa using haux)
  refine ⟨b, (steps_next_iff _ w m _).2 hrun, hb.idle, ?_, hresult, hiter⟩
  rw [← herr, ← haux0]
  exact hb.regs

/-- Fermat's little theorem: modulo a prime `p`, an exponent that is 1 modulo `p − 1` gives the base back. -/
theorem pow_modEq_self_of_prime {p k : Nat} (hp : p.Prime) (hk : p - 1 ∣ k - 1) (hpos : 0 < k)
    (x : Nat) : x ^ k ≡ x [MOD p] := by
  have h := Int.ModEq.pow_eq_pow hp hk hpos one_pos x
  rw [pow_one] at h
  exact_mod_cast h

/-- Modulo a product of two primes, an exponent that is 1 modulo the totient gives the base back
(rule R149). -/
theorem pow_modEq_self_of_totient {p q k : Nat} (hp : p.Prime) (hq : q.Prime) (hne : p ≠ q)
    (hk : k % deriveTotient p q = 1) (x : Nat) : x ^ k ≡ x [MOD p * q] := by
  have hpos : 0 < k := Nat.pos_of_ne_zero fun h => by simp [h] at hk
  have hdvd : (p - 1) * (q - 1) ∣ k - 1 := by
    have h : deriveTotient p q ∣ k - k % deriveTotient p q := Nat.dvd_sub_mod k
    rwa [hk] at h
  exact (Nat.modEq_and_modEq_iff_modEq_mul ((Nat.coprime_primes hp hq).2 hne)).1
    ⟨pow_modEq_self_of_prime hp ((Nat.dvd_mul_right _ _).trans hdvd) hpos x,
      pow_modEq_self_of_prime hq ((Nat.dvd_mul_left _ _).trans hdvd) hpos x⟩

/-- Raising to `e` and what that gave to `d`, both modulo `p·q`, reduces the message (rule R149). -/
theorem pow_mod_pow_mod_of_totient {p q e d : Nat} (hp : p.Prime) (hq : q.Prime) (hne : p ≠ q)
    (hk : e * d % deriveTotient p q = 1) (x : Nat) :
    (x ^ e % (p * q)) ^ d % (p * q) = x % (p * q) := by
  rw [← Nat.pow_mod, ← pow_mul]
  exact pow_modEq_self_of_totient hp hq hne hk x

/-- A word of a positive value is nonzero. -/
theorem ne_zero_of_toNat_eq {m : Word n} {k : Nat} (h : m.toNat = k) (hk : 0 < k) : m ≠ 0 :=
  fun h0 => hk.ne (by simpa [h0] using h)

/-- Settles O27: both commands deliver their powers, the second one in range because the first one's
result is below the modulus, and the two powers together give the message back. -/
theorem encryptThenDecryptReturnsTheMessage : Obligations.EncryptThenDecryptReturnsTheMessage := by
  intro p q w m m' rest rest' hp hq hne hreset hf h0 hd hr hreset' hf' h0' hd' hn hn' hk hs hs'
  have hpos : 0 < p * q := Nat.mul_pos hp.pos hq.pos
  have hl : m.blk.eng.lc ≠ 0 := ne_zero_of_toNat_eq hn hpos
  have hl' : m'.blk.eng.lc ≠ 0 := ne_zero_of_toNat_eq hn' hpos
  obtain ⟨b, hrun, hidle, hregs, hresult, -⟩ :=
    modexpCommandDeliversThePower w m rest hreset hf hd h0 hl hr hs
  rw [hn] at hresult
  refine ⟨b, hrun, hidle, by rw [hregs], by rw [hregs], fun hla => ?_⟩
  have hr' : m'.blk.eng.la.toNat < m'.blk.eng.lc.toNat := by
    rw [hla, hresult, hn']
    exact Nat.mod_lt _ hpos
  obtain ⟨b', hrun', hidle', hregs', hresult', -⟩ :=
    modexpCommandDeliversThePower w m' rest' hreset' hf' hd' h0' hl' (.inr hr') hs'
  refine ⟨b', hrun', hidle', by rw [hregs'], by rw [hregs'], ?_⟩
  rw [hresult', hla, hresult, hn', pow_mod_pow_mod_of_totient hp hq hne hk]

end Sys2Proof.Machine
end

section
/-! The check step's errors, in their order (rule R165). -/

namespace Sys2Proof.Machine

variable {n : Nat}

/-- A command's enabled step is what the engine's turn does when, at `CHECK`, the latched word is that
command's (rules R103, R104). -/
theorem engineTurnM_of_blockStep {m : Mach n} {i : Instr} {b : Block n} (h : blockStep i m.blk = some b)
    (hd : m.blk.eng.fsm = .check → decode m.blk.eng.cmd = some i) :
    engineTurnM m = .next (m.setBlk b) := by
  rcases (blockStep_isSome_iff i m.blk).1 (by rw [h]; rfl) with hf | ⟨rfl, hf⟩ | ⟨rfl, hf⟩ | ⟨rfl, hf⟩
  · simp only [engineTurnM, hf, hd hf, h]
  · cases (gcdBlock_loop hf).symm.trans h
    simp only [engineTurnM, hf]
  · cases (invBlock_loop hf).symm.trans h
    simp only [engineTurnM, hf]
  · cases (modexpBlock_loop hf).symm.trans h
    simp only [engineTurnM, hf]

/-- On the engine's turn a step is the enabled step of the command that runs. -/
theorem step_of_blockStep {w : OpWidth} {m : Mach w.bits} {i : Instr} {b : Block w.bits}
    (hnext : m.engineIsNext) (h : blockStep i m.blk = some b)
    (hd : m.blk.eng.fsm = .check → decode m.blk.eng.cmd = some i) :
    step ⟨w, m⟩ = .next ⟨w, m.turnUsed.setBlk b⟩ := by
  rw [step_next_iff, stepM_of_engineIsNext hnext]
  exact engineTurnM_of_blockStep (m := m.turnUsed) h hd

/-- Settles O17: an illegal word is found before any operand is looked at, and a zero modulus before a
base out of range. -/
theorem errorPriority : Obligations.ErrorPriority := by
  intro w m hnext hf
  cases hd : decode m.blk.eng.cmd with
  | none =>
    exact ⟨_, illegalWordCompletesWithIllegalCommand w m hnext hf hd, fun _ => rfl, nofun, nofun, nofun⟩
  | some i =>
    obtain ⟨b, hb⟩ := Option.isSome_iff_exists.1 ((blockStep_isSome_iff i m.blk).2 (.inl hf))
    refine ⟨b, step_of_blockStep hnext hb fun _ => hd, nofun, ?_, ?_, ?_⟩
    · rintro ⟨⟩ hl
      cases (modexpBlock_check hf).symm.trans hb
      rw [modexpCheck_modulusZero hl]
      rfl
    · rintro ⟨⟩ hl hr hle
      cases (modexpBlock_check hf).symm.trans hb
      rw [modexpCheck_outOfRange hl hr hle]
      rfl
    · rintro ⟨⟩ hl
      cases (modmulBlock_check hf).symm.trans hb
      rw [modmulCheck_modulusZero hl]
      rfl

end Sys2Proof.Machine
end

section
/-! An idle engine, and what wakes it (rule R186). -/

namespace Sys2Proof.Machine

variable {n : Nat}

/-- Settles O6: the engine's turn passes, in reset or not. -/
theorem idleEngineTakesNoStep : Obligations.IdleEngineTakesNoStep := fun w m hf hm =>
  (step_next_iff w m m.turnUsed).2 (stepM_of_engine_idle hm hf)

/-- A port write that wakes an idle engine is a `CMD` write, which is accepted (rules R100, R186). -/
theorem Block.writeReg_wakes {b : Block n} {v : Word n} {r : Reg} (hf : b.eng.fsm = .idle)
    (hw : (b.writeReg v r).eng.fsm ≠ .idle) : r = .cmd ∧ b.writeReg v r = b.accept v := by
  rcases b.writeReg_cases v r with ⟨-, -, e⟩ | ⟨hr, -, e⟩ | ⟨heng, -⟩
  · exact absurd (by rw [e]; rfl) hw
  · exact ⟨hr, e⟩
  · exact absurd (heng ▸ hf) hw

/-- A step that wakes an idle engine is the host's `wr CMD` outside a hard reset, whose word the block
accepts (rules R100, R186, R195). -/
theorem stepM_wakes {m t : Mach n} (h : stepM m = .next t) (hf : m.blk.eng.fsm = .idle)
    (hw : t.blk.eng.fsm ≠ .idle) :
    m.hostIsNext ∧ m.resetIn = false ∧ ∃ v x, m.host.script[m.host.pos]? = some (.wr .cmd v) ∧
      v.eval m.host.names = some x ∧ x < 2 ^ n ∧ t.blk = m.blk.accept (BitVec.ofNat n x) := by
  rcases stepM_cases h with ⟨⟨-, hbusy, -⟩, -⟩ | ⟨hhost, hr, r, v, x, hst, hv, hx, rfl⟩ |
    ⟨-, -, a, rfl⟩ | ⟨-, rfl⟩ | ⟨-, rfl⟩ | ⟨-, rfl⟩
  case inl => exact absurd hf hbusy
  case inr.inl =>
    obtain ⟨rfl, e⟩ := Block.writeReg_wakes hf hw
    exact ⟨hhost, hr, v, x, hst, hv, hx, e⟩
  case inr.inr.inl => exact absurd hf hw
  case inr.inr.inr.inl => exact absurd hf hw
  case inr.inr.inr.inr.inl => exact absurd rfl hw
  case inr.inr.inr.inr.inr => exact absurd rfl hw

/-- Settles O54: the block that has accepted the word is at `CHECK` with the word latched. -/
theorem onlyAcceptedCmdWriteWakesTheEngine : Obligations.OnlyAcceptedCmdWriteWakesTheEngine := by
  intro w m m' h hf hw
  obtain ⟨hhost, hr, v, x, hst, hv, hx, e⟩ := stepM_wakes ((step_next_iff w m m').1 h) hf hw
  have hcmd : m'.blk.eng.cmd = BitVec.ofNat w.bits x := by rw [e]; rfl
  exact ⟨hhost, hr, v, x, hst, hv, by rw [e]; rfl, by rw [hcmd, BitVec.toNat_ofNat, Nat.mod_eq_of_lt hx]⟩

end Sys2Proof.Machine
end

section
/-! A port write just before the engine step that completes the command (rule R166). -/

namespace Sys2Proof.Machine

variable {n : Nat}

/-- A step that completes a command does so on any register file, with the values that the engine decides
(rules R106, R109). -/
theorem blockStep_completes_congr {i : Instr} {b c d : Block n} (he : c.eng = b.eng)
    (h : blockStep i b = some d) (hidle : d.eng.fsm = .idle) :
    ∃ err q aux it, d = b.complete err q aux it ∧ blockStep i c = some (c.complete err q aux it) := by
  rcases blockStep_cases h with ⟨err, q, aux, it, rfl⟩ | ⟨-, hbusy, -⟩
  · obtain ⟨d', hd', heng, ⟨-, -, hbusy⟩ | ⟨-, hregs, -⟩⟩ := blockStep_congr he h
    · exact absurd hidle hbusy
    · refine ⟨err, q, aux, it, rfl, hd'.trans (congrArg some ?_)⟩
      obtain ⟨regs, eng⟩ := d'
      cases heng
      cases hregs
      rw [Block.complete, Block.complete, he]
  · exact absurd hidle hbusy

/-- An engine turn that completes the command does so on any register file, with the values that the
engine decides. -/
theorem engineTurnM_completes_congr {m t u : Mach n} (he : t.blk.eng = m.blk.eng)
    (hf : m.blk.eng.fsm ≠ .idle) (h : engineTurnM m = .next u) (hidle : u.blk.eng.fsm = .idle) :
    ∃ err q aux it, u.blk = m.blk.complete err q aux it ∧
      engineTurnM t = .next (t.setBlk (t.blk.complete err q aux it)) := by
  rcases engineTurnM_cases m with ⟨hidle', -⟩ | ⟨-, b, e, ⟨i, hb, hd⟩ | ⟨hc, hd, rfl⟩⟩
  · exact absurd hidle' hf
  · cases e.symm.trans h
    obtain ⟨err, q, aux, it, hu, ht⟩ := blockStep_completes_congr he hb hidle
    exact ⟨err, q, aux, it, hu, engineTurnM_of_blockStep ht (he ▸ hd)⟩
  · cases e.symm.trans h
    exact ⟨_, _, _, _, rfl, engineTurnM_illegal (he ▸ hc) (he ▸ hd)⟩

/-- On the host's turn a `wr` of a number is carried out (rules R88, R207). -/
theorem stepM_of_wr {m : Mach n} {u : Turn} {us : List Turn} {r : Reg} {x : Nat} (hhost : m.hostIsNext)
    (hs : m.sched = u :: us) (hr : m.resetIn = false)
    (hst : m.host.script[m.host.pos]? = some (.wr r (.num x))) (hx : x < 2 ^ n) :
    stepM m = .next (m.afterWr r x us) := by
  rw [stepM_of_hostIsNext hhost, hostTurn_wr (m := m.turnUsed) hst hr, hostWr_of_lt r rfl hx,
    portWrite_idx, Mach.turnUsed_of_cons hs]
  rfl

/-- The host writes a register and leaves the engine, then the engine completes: with the values it would
have completed with in `u`, on the register file as it was written (rules R109, R166). -/
theorem stepsM_wr_then_complete {m u : Mach n} {rest : List Turn} {r : Reg} {x : Nat}
    (hr : m.resetIn = false) (hf : m.blk.eng.fsm ≠ .idle) (hs : m.sched = .host :: .engine :: rest)
    (hst : m.host.script[m.host.pos]? = some (.wr r (.num x))) (hx : x < 2 ^ n)
    (he : (m.blk.writeReg (BitVec.ofNat n x) r).eng = m.blk.eng) (h : engineTurnM m = .next u)
    (hidle : u.blk.eng.fsm = .idle) :
    ∃ t err q aux it, stepsM 2 m = .next t ∧ u.blk = m.blk.complete err q aux it ∧
      t.blk = (m.blk.writeReg (BitVec.ofNat n x) r).complete err q aux it := by
  have hwr := stepM_of_wr (Mach.mover_of_cons hs (by decide)) hs hr hst hx
  have hnext : (m.afterWr r x (.engine :: rest)).engineIsNext :=
    ⟨hr, fun hi => hf (he ▸ hi), Mach.mover_of_cons (ts := rest) rfl (by decide)⟩
  obtain ⟨err, q, aux, it, hu, ht⟩ :=
    engineTurnM_completes_congr (t := (m.afterWr r x (.engine :: rest)).turnUsed) he hf h hidle
  have hrun := (stepsM_succ_of_next hwr 1).trans
    (stepsM_succ_of_next ((stepM_of_engineIsNext hnext).trans ht) 0)
  exact ⟨_, err, q, aux, it, hrun, hu, rfl⟩

/-- Settles O57: a running engine drops the `CMD` write, and the completion sets `DONE` after the W1C. -/
theorem portOperationBeforeCompletingStep : Obligations.PortOperationBeforeCompletingStep := by
  intro w m u rest x hr hf hs hx h hidle
  rw [engineTurn_eq, liftOutcome_next_iff] at h
  obtain ⟨u', hu', e⟩ := h
  obtain rfl := (State.mk_inj w u u').1 e
  have hcmd : m.blk.writeReg (BitVec.ofNat w.bits x) .cmd = m.blk.drop :=
    cmdWriteWhileBusyIsDropped w m.blk _ hf
  refine ⟨fun hst => ?_, fun hst => ?_⟩
  · obtain ⟨t, err, q, aux, it, ht, hu, e⟩ :=
      stepsM_wr_then_complete hr hf hs hst hx (by rw [hcmd]; rfl) hu' hidle
    rw [hcmd] at e
    exact ⟨t, (steps_next_iff 2 w m t).2 ht, by rw [e, hu]; rfl, by rw [e, hu]; rfl⟩
  · obtain ⟨t, err, q, aux, it, ht, hu, e⟩ :=
      stepsM_wr_then_complete hr hf hs hst hx rfl hu' hidle
    exact ⟨t, (steps_next_iff 2 w m t).2 ht, by rw [e, hu]; rfl, by rw [e]; rfl⟩

end Sys2Proof.Machine
end

section
/-! The interrupt output and the return from a completion (rules R169 to R171). -/

namespace Sys2Proof.Machine

variable {n : Nat}

theorem Block.irq_iff (b : Block n) :
    b.irq = true ↔ b.regs.irqEn = true ∧ b.regs.done = true := Bool.and_eq_true_iff

theorem Block.irq_of_done_eq_false {b : Block n} (h : b.regs.done = false) : b.irq = false := by
  rw [Block.irq, h, Bool.and_false]

/-- Bit 0 of a read of `CTRL` is `IRQ_EN` (rule R26). -/
theorem Block.ctrlWord_getLsbD_zero (hn : 0 < n) (b : Block n) :
    b.ctrlWord.getLsbD 0 = b.regs.irqEn := by
  have hbit : ∀ r i : Bool, (BitVec.ofBool r ++ BitVec.ofBool i).getLsbD 0 = i := by decide
  rw [Block.ctrlWord, BitVec.getLsbD_setWidth, hbit, decide_eq_true hn, Bool.true_and]

/-- Bit 1 of a read of `STATUS` is `DONE` (rule R30). -/
theorem Block.statusWord_getLsbD_one (hn : 1 < n) (b : Block n) :
    b.statusWord.getLsbD 1 = b.regs.done := by
  have hbit : ∀ (c : BitVec 4) (o d b : Bool),
      (c ++ 0#1 ++ BitVec.ofBool o ++ BitVec.ofBool d ++ BitVec.ofBool b).getLsbD 1 = d := by decide
  rw [Block.statusWord, BitVec.getLsbD_setWidth, hbit, decide_eq_true hn, Bool.true_and]

/-- Settles O40: the two registers read the two fields, and a `CTRL` write sets the first of them. -/
theorem interruptFollowsEnableAndDone : Obligations.InterruptFollowsEnableAndDone := by
  intro w b v
  have hw := w.bits_ge
  rw [portRead_2, portRead_3, b.ctrlWord_getLsbD_zero (by omega), b.statusWord_getLsbD_one (by omega)]
  refine ⟨b.irq_iff, fun h => ?_⟩
  have hwrite := (ctrlWriteSetsFieldsOrResets w b v).2.1 h
  rw [hwrite]
  exact ⟨rfl, rfl⟩

/-- The word `0x2` clears `DONE` and leaves `OVR` (rule R33). -/
theorem Block.acknowledge_eq (hn : 1 < n) (b : Block n) :
    b.acknowledge = { b with regs := { b.regs with done := false } } := by
  have hbit (k : Nat) : (0x2 : Word n).getLsbD k = (decide (k < n) && Nat.testBit 0x2 k) :=
    BitVec.getLsbD_ofNat ..
  have h1 : (0x2 : Word n).getLsbD 1 = true := by rw [hbit, decide_eq_true hn]; rfl
  have h2 : (0x2 : Word n).getLsbD 2 = false := (hbit 2).trans (Bool.and_false _)
  rw [Block.acknowledge, Regs.writeStatus_eq, h1, h2]
  rfl

/-- Settles O41: the acknowledge operation and an acceptance both leave `DONE = 0`. -/
theorem acknowledgeClearsDoneOnly : Obligations.AcknowledgeClearsDoneOnly := by
  intro w b v
  have hack := b.acknowledge_eq (by have := w.bits_ge; omega)
  have hwrite : portWrite b 0x3#4 0x2 = b.acknowledge := portWrite_3 b 0x2
  rw [hwrite]
  refine ⟨rfl, hack, by rw [hack]; exact Block.irq_of_done_eq_false rfl, fun hf => ?_⟩
  rw [cmdWriteWhileIdleIsAccepted w b v hf]
  exact ⟨rfl, Block.irq_of_done_eq_false rfl⟩

end Sys2Proof.Machine
end

section
/-! The reset state and the two edges of the reset input (rules R190 to R192, R211). -/

namespace Sys2Proof.Machine

variable {n : Nat}

/-- Settles O29: the reset block is in its invariant, and the host agent holds no script and no name. -/
theorem invariantHoldsAtReset : Obligations.InvariantHoldsAtReset := fun w =>
  Mach.inv_of_parts (Block.inv_reset w.bits) (fun _ => rfl) ⟨Nat.le_refl 0, List.forall_mem_nil _, .nil⟩

/-! ### What the reset block reads -/

theorem Block.ctrlWord_reset (n : Nat) : (Block.reset n).ctrlWord = 0 := by
  simp [Block.ctrlWord, Regs.reset]

theorem Block.statusWord_reset (n : Nat) : (Block.reset n).statusWord = 0 := by
  simp [Block.statusWord, Regs.reset, Block.busy, ErrCode.code]

/-- After a reset every register but the two constants reads 0 (rules R20, R190). -/
theorem Block.readReg_reset {r : Reg} (hid : r ≠ .id) (hparam : r ≠ .param) :
    (Block.reset n).readReg r = 0 := by
  cases r with
  | id => exact absurd rfl hid
  | param => exact absurd rfl hparam
  | ctrl => exact Block.ctrlWord_reset n
  | status => exact Block.statusWord_reset n
  | _ => rfl

/-- The two constants stand at the indices 0 and 1 (rule R20). -/
theorem Reg.ofIdx_ne_constant {i : BitVec 4} (h : 2 ≤ i.toNat) :
    Reg.ofIdx i ≠ .id ∧ Reg.ofIdx i ≠ .param := by
  revert i; decide

/-- Settles O42: the two flags of the reset block, its reads, and the soft reset of a `CTRL` write. -/
theorem resetStateAndSoftReset : Obligations.ResetStateAndSoftReset := by
  refine fun w b v idx => ⟨rfl, rfl, fun h => ?_, (ctrlWriteSetsFieldsOrResets w b v).1⟩
  obtain ⟨hid, hparam⟩ := Reg.ofIdx_ne_constant h
  exact Block.readReg_reset hid hparam

/-! ### The turns of a hard reset -/

theorem stepM_of_assertReset {m : Mach n} (hm : m.mover = .assertReset) :
    stepM m = .next (assertReset m.turnUsed) := by rw [stepM, hm]; rfl

theorem stepM_of_releaseReset {m : Mach n} (hm : m.mover = .releaseReset) :
    stepM m = .next (releaseReset m.turnUsed) := by rw [stepM, hm]; rfl

/-- No engine step takes place while the reset input is asserted (rule R190). -/
theorem stepM_of_engine_inReset {m : Mach n} (hm : m.mover = .engine) (hr : m.resetIn = true) :
    stepM m = .next m.turnUsed := by
  simp only [stepM, hm, turnM, Mach.turnUsed_resetIn, hr, if_true]

/-- A due turn is the engine's, so nobody's, while the reset input is asserted (log entry 5). -/
theorem Mach.mover_of_due_inReset {m : Mach n} (h : m.upcoming.1 = .due) (hr : m.resetIn = true) :
    m.mover = .engine := by simp [Mach.mover, h, Mach.engineIsDue, hr]

/-- Settles O43: the two edges, and the engine's turn in reset, which a due turn is too. -/
theorem hardResetAbortsAndResets : Obligations.HardResetAbortsAndResets := fun w m =>
  ⟨fun hm => (step_next_iff w m _).2 (stepM_of_assertReset hm),
    fun hm => (step_next_iff w m _).2 (stepM_of_releaseReset hm),
    fun hm hr => (step_next_iff w m _).2 (stepM_of_engine_inReset hm hr),
    fun hdue hr =>
      (step_next_iff w m _).2 (stepM_of_engine_inReset (Mach.mover_of_due_inReset hdue hr) hr)⟩

/-! ### Refusals -/

/-- Settles O58: a step is refused only on the host's turn, for a port operation in reset. -/
theorem onlyPortOperationsDuringResetAreRefused :
    Obligations.OnlyPortOperationsDuringResetAreRefused := by
  intro w m r h
  rw [step_eq, liftOutcome_refused_iff] at h
  obtain ⟨hhost, hr, hrefusal⟩ := stepM_refused h
  exact ⟨hrefusal, hr, hhost⟩

/-- The three port operations have no turn while the reset input is asserted (rule R195). -/
theorem hostTurn_portOperation_inReset {m : Mach n} {st : Stmt} (hr : m.resetIn = true)
    (hst : m.host.script[m.host.pos]? = some st) (hlabel : ∀ l, st ≠ .label l)
    (hif : ∀ c l, st ≠ .ifGoto c l) (hdraw : ∀ k v, st ≠ .draw k v) :
    hostTurn m = .refused .portDuringHardReset := by
  cases st with
  | wr r v => simp only [hostTurn, hst, Mach.portTurn_inReset hr]
  | rd r k => simp only [hostTurn, hst, Mach.portTurn_inReset hr]
  | poll f v => rw [hostTurn_poll hst, Mach.portTurn_inReset hr]
  | label l => exact absurd rfl (hlabel l)
  | ifGoto c l => exact absurd rfl (hif c l)
  | draw k v => exact absurd rfl (hdraw k v)

/-- Settles O44: on the host's turn the step is refused as the host's turn is. -/
theorem portOperationDuringHardResetIsRefused :
    Obligations.PortOperationDuringHardResetIsRefused := by
  intro w m st hhost hr hst hlabel hif hdraw
  rw [step_of_hostIsNext w hhost,
    hostTurn_portOperation_inReset (m := m.turnUsed) hr hst hlabel hif hdraw, liftOutcome_refused]

end Sys2Proof.Machine
end

section
/-! A host program that has ended (rule R210). -/

namespace Sys2Proof.Machine

variable {n : Nat}

theorem Mach.ended_iff (m : Mach n) :
    m.ended = true ↔ m.host.script.length ≤ m.host.pos ∧ m.blk.eng.fsm = .idle := by
  rw [Mach.ended, Bool.and_eq_true, decide_eq_true_iff, Bool.not_eq_true', Block.busy_eq_false_iff]

/-- No statement is left: the host's turn passes (log entry 6). -/
theorem hostTurn_of_ended {m : Mach n} (h : m.ended = true) : hostTurn m = .next m := by
  obtain ⟨hpos, -⟩ := m.ended_iff.1 h
  simp only [hostTurn, List.getElem?_eq_none hpos]

/-- The turns of an ended host and of an idle engine pass (log entry 6). -/
theorem stepM_of_ended {m : Mach n} (h : m.ended = true) (hm : m.mover = .host ∨ m.mover = .engine) :
    stepM m = .next m.turnUsed := by
  rcases hm with hhost | heng
  · rw [stepM_of_hostIsNext hhost]
    exact hostTurn_of_ended (m := m.turnUsed) h
  · exact stepM_of_engine_idle heng (m.ended_iff.1 h).2

/-- `t` is an end state of the program ended in `m`: the same host agent, and the block left or reset. -/
structure Mach.RestsAs (m t : Mach n) : Prop where
  ended : t.ended = true
  host : t.host = m.host
  blk : t.blk = m.blk ∨ t.blk = Block.reset n

theorem Mach.RestsAs.trans {m u t : Mach n} (hu : m.RestsAs u) (ht : u.RestsAs t) : m.RestsAs t where
  ended := ht.ended
  host := ht.host.trans hu.host
  blk := by
    rcases ht.blk with e | e
    · rw [e]; exact hu.blk
    · exact .inr e

/-- A reset block runs no command, so a reset that leaves the host agent leaves the program ended. -/
theorem Mach.restsAs_of_reset {m t : Mach n} (h : m.ended = true) (hhost : t.host = m.host)
    (hblk : t.blk = Block.reset n) : m.RestsAs t := by
  obtain ⟨hpos, -⟩ := m.ended_iff.1 h
  exact ⟨t.ended_iff.2 ⟨hhost ▸ hpos, by rw [hblk]; rfl⟩, hhost, .inr hblk⟩

/-- Every step of an ended program goes on, in an end state. -/
theorem exists_stepM_restsAs {m : Mach n} (h : m.ended = true) :
    ∃ t, stepM m = .next t ∧ m.RestsAs t := by
  have hturn : m.RestsAs m.turnUsed := ⟨h, rfl, .inl rfl⟩
  cases hm : m.mover with
  | due => exact absurd hm m.mover_ne_due
  | host => exact ⟨_, stepM_of_ended h (.inl hm), hturn⟩
  | engine => exact ⟨_, stepM_of_ended h (.inr hm), hturn⟩
  | assertReset => exact ⟨_, stepM_of_assertReset hm, Mach.restsAs_of_reset h rfl rfl⟩
  | releaseReset => exact ⟨_, stepM_of_releaseReset hm, Mach.restsAs_of_reset h rfl rfl⟩

theorem exists_stepsM_restsAs (k : Nat) {m : Mach n} (h : m.ended = true) :
    ∃ t, stepsM k m = .next t ∧ m.RestsAs t := by
  induction k generalizing m with
  | zero => exact ⟨m, rfl, h, rfl, .inl rfl⟩
  | succ k ih =>
    obtain ⟨u, hstep, hu⟩ := exists_stepM_restsAs h
    obtain ⟨t, hrun, ht⟩ := ih hu.ended
    exact ⟨t, (stepsM_succ_of_next hstep k).trans hrun, hu.trans ht⟩

/-- Settles O60: every step of an ended program goes on in an end state, and an agent's turn passes. -/
theorem endedProgramsRest : Obligations.EndedProgramsRest := by
  refine fun w m h => ⟨fun k => ?_, fun hm => (step_next_iff w m _).2 (stepM_of_ended h hm)⟩
  obtain ⟨t, hrun, ht⟩ := exists_stepsM_restsAs k h
  exact ⟨t, (steps_next_iff k w m t).2 hrun, ht.ended, ht.host, ht.blk⟩

end Sys2Proof.Machine
end
